-- ==== Sys2Proof/Word.lean ====
section
/-! DEFINITION. The word types of CHIP8-CORE (00_scope.md R5, R9, R10): bytes, 16-bit words, 12-bit addresses, nibbles
and register numbers. Every value of the machine is unsigned (R9). -/

namespace Sys2Proof

/-- An 8-bit value: a general register, a timer, a byte of memory (R5 `REG_WIDTH`, `TIMER_WIDTH`). -/
abbrev Byte := BitVec 8

/-- A 16-bit value: I, PC, a call-stack entry, an instruction word, a key mask (R5 `I_WIDTH`, `PC_WIDTH`). -/
abbrev Word := BitVec 16

/-- The 12-bit address field `nnn` of an instruction word (R10). -/
abbrev Addr12 := BitVec 12

/-- A 4-bit slice of an instruction word (R10). -/
abbrev Nibble := BitVec 4

/-- The number of a general register, V0 to VF (R20). -/
abbrev Reg := Fin 16

end Sys2Proof
end

