-- ==== Sys2Proof/Machine/Flags.lean ====
section
/-! DEFINITION. Every value the spec puts in VF (10_state.md R35), each computed from the unreduced operands. A flag is 0 or
1. -/

namespace Sys2Proof.Machine

/-- 1 or 0. -/
def flagByte (b : Bool) : Byte := if b then 1 else 0

/-- ADD Vx,Vy: carry, 1 if the sum exceeds 255 (42_alu.md R126). -/
def carryFlag (a b : Byte) : Byte := flagByte (decide (255 < a.toNat + b.toNat))

/-- SUB, SUBN: 1 when no borrow is needed, minuend at least subtrahend (R127, R130). -/
def noBorrowFlag (minuend subtrahend : Byte) : Byte := flagByte (decide (subtrahend.toNat ≤ minuend.toNat))

/-- SHR: bit 0, shifted out (R128). -/
def lowBitFlag (a : Byte) : Byte := flagByte (a.getLsbD 0)

/-- SHL: bit 7, shifted out (R131). -/
def highBitFlag (a : Byte) : Byte := flagByte (a.getLsbD 7)

/-- ADD I,Vx: 1 if the unreduced sum exceeds 0xFFF (45_index_memory.md R171). -/
def indexOverflowFlag (i : Word) (b : Byte) : Byte := flagByte (decide (0xFFF < i.toNat + b.toNat))

/-- DRW: 1 if a lit pixel was turned off (43_display.md R142). -/
def collisionFlag (collided : Bool) : Byte := flagByte collided

end Sys2Proof.Machine
end

