-- ==== Sys2Proof/Config.lean ====
section
/-! DEFINITION. What an implementation of CHIP8-CORE fixes: the fixed parameters of 00_scope.md R5, the type of the
adjustable parameters of R6 (their values for the modelled machine stand in Machine/Params.lean), and the one free value of
the machine, the byte that RND draws (42_alu.md R132). -/

namespace Sys2Proof

/-- `MEM_SIZE` (R5): bytes of AddressSpace. -/
def memSize : Nat := 4096
/-- `FONT_BYTES` (R5): the font occupies addresses 0 to 79; `FONT_BASE` is 0. -/
def fontBytes : Nat := 80
/-- `GLYPH_BYTES` (R5). -/
def glyphBytes : Nat := 5
/-- `PROG_BASE` (R5): load address and initial PC. -/
def progBase : Nat := 0x200
/-- `MAX_ROM` (R5): 4096 - 512. -/
def maxRom : Nat := 3584
/-- `STACK_DEPTH` (R5). -/
def stackDepth : Nat := 16
/-- `FB_W` (R5). -/
def fbWidth : Nat := 64
/-- `FB_H` (R5). -/
def fbHeight : Nat := 32

/-- `SHIFT_SOURCE` (R6, 92_eei_decisions.md D14): which register SHR and SHL shift. -/
inductive ShiftSource where
  | vx | vy
  deriving DecidableEq, Repr

/-- `JUMP_BASE` (R6, D12): what JP V0,nnn adds to `nnn`. -/
inductive JumpBase where
  | v0 | indexI
  deriving DecidableEq, Repr

/-- `KEYWAIT_TRIGGER` (R6, D21): what ends an await-keypress. -/
inductive KeywaitTrigger where
  | edge | level
  deriving DecidableEq, Repr

/-- `ERR_CODE` (R6, D3): the number of each error code. -/
structure ErrNumbers where
  none  : Nat
  unk   : Nat
  sov   : Nat
  sun   : Nat
  norom : Nat
  aob   : Nat
  deriving DecidableEq, Repr

/-- The adjustable parameters of R6. -/
structure Config where
  /-- `FONT[0..79]` (20_memory.md R58, D26). -/
  font           : List Byte
  /-- `SPRITE_WRAP` (43_display.md R144, D17). -/
  spriteWrap     : Bool
  /-- `STRICT_DECODE` (30_encoding.md R78, D4). -/
  strictDecode   : Bool
  shiftSource    : ShiftSource
  jumpBase       : JumpBase
  keywaitTrigger : KeywaitTrigger
  errCode        : ErrNumbers
  deriving DecidableEq, Repr

/-- FREE VALUE. The byte that the k-th draw of `RandomByte()` delivers (42_alu.md R132, 92_eei_decisions.md D25, log 3). It
has no value anyone can compute: a claim about the machine holds for every byte drawn. -/
opaque Config.randomByte : Nat → Byte

end Sys2Proof
end

