-- ==== Sys2Proof/Machine/Params.lean ====
section
/-! DEFINITION. The configuration of the modelled machine: every adjustable parameter at the default 00_scope.md R6 gives
it. Decoding and the meanings read their parameter from here, and nothing else does. -/

namespace Sys2Proof.Machine

/-- The built-in font (20_memory.md R58): glyph `d` at `5 * d`, one row per byte, pattern in the high nibble (log 12). -/
def defaultFont : List Byte :=
  [0xF0, 0x90, 0x90, 0x90, 0xF0,  0x20, 0x60, 0x20, 0x20, 0x70,  0xF0, 0x10, 0xF0, 0x80, 0xF0,  0xF0, 0x10, 0xF0, 0x10, 0xF0] ++
  [0x90, 0x90, 0xF0, 0x10, 0x10,  0xF0, 0x80, 0xF0, 0x10, 0xF0,  0xF0, 0x80, 0xF0, 0x90, 0xF0,  0xF0, 0x10, 0x20, 0x40, 0x40] ++
  [0xF0, 0x90, 0xF0, 0x90, 0xF0,  0xF0, 0x90, 0xF0, 0x10, 0xF0,  0xF0, 0x90, 0xF0, 0x90, 0x90,  0xE0, 0x90, 0xE0, 0x90, 0xE0] ++
  [0xF0, 0x80, 0x80, 0x80, 0xF0,  0xE0, 0x90, 0x90, 0x90, 0xE0,  0xF0, 0x80, 0xF0, 0x80, 0xF0,  0xF0, 0x80, 0xF0, 0x80, 0x80]

/-- R6, column "default" (logs 7 to 13). -/
def config : Config where
  font           := defaultFont
  spriteWrap     := false
  strictDecode   := false
  shiftSource    := .vx
  jumpBase       := .v0
  keywaitTrigger := .edge
  errCode        := { none := 0, unk := 1, sov := 2, sun := 3, norom := 4, aob := 5 }

end Sys2Proof.Machine
end

