-- ==== Sys2Proof/Syntax.lean ====
section
/-! DEFINITION. The instructions of CHIP8-CORE: one constructor per row of spec/opcode_table.json, in the table's order
(30_encoding.md R75). Register numbers, immediates and addresses have the widths of their fields (R72), so an instruction
holds no operand its word could not hold. -/

namespace Sys2Proof

/-- An instruction, or the word that is none (R75, R76). The comment of each constructor is its canonical pattern. -/
inductive Instr where
  /-- `00E0` CLS -/
  | cls
  /-- `00EE` RET -/
  | ret
  /-- `1NNN` JP nnn -/
  | jpNnn (nnn : Addr12)
  /-- `2NNN` CALL nnn -/
  | callNnn (nnn : Addr12)
  /-- `3XNN` SE Vx,nn -/
  | seVxNn (x : Reg) (nn : Byte)
  /-- `4XNN` SNE Vx,nn -/
  | sneVxNn (x : Reg) (nn : Byte)
  /-- `5XY0` SE Vx,Vy -/
  | seVxVy (x y : Reg)
  /-- `6XNN` LD Vx,nn -/
  | ldVxNn (x : Reg) (nn : Byte)
  /-- `7XNN` ADD Vx,nn -/
  | addVxNn (x : Reg) (nn : Byte)
  /-- `8XY0` LD Vx,Vy -/
  | ldVxVy (x y : Reg)
  /-- `8XY1` OR Vx,Vy -/
  | orVxVy (x y : Reg)
  /-- `8XY2` AND Vx,Vy -/
  | andVxVy (x y : Reg)
  /-- `8XY3` XOR Vx,Vy -/
  | xorVxVy (x y : Reg)
  /-- `8XY4` ADD Vx,Vy -/
  | addVxVy (x y : Reg)
  /-- `8XY5` SUB Vx,Vy -/
  | subVxVy (x y : Reg)
  /-- `8XY6` SHR Vx; `y` is decoded and, at the default `SHIFT_SOURCE`, not used -/
  | shrVx (x y : Reg)
  /-- `8XY7` SUBN Vx,Vy -/
  | subnVxVy (x y : Reg)
  /-- `8XYE` SHL Vx; `y` as for SHR -/
  | shlVx (x y : Reg)
  /-- `9XY0` SNE Vx,Vy -/
  | sneVxVy (x y : Reg)
  /-- `ANNN` LD I,nnn -/
  | ldINnn (nnn : Addr12)
  /-- `BNNN` JP V0,nnn -/
  | jpV0Nnn (nnn : Addr12)
  /-- `CXNN` RND Vx,nn -/
  | rndVxNn (x : Reg) (nn : Byte)
  /-- `DXYN` DRW Vx,Vy,n -/
  | drwVxVyN (x y : Reg) (n : Nibble)
  /-- `EX9E` SKP Vx -/
  | skpVx (x : Reg)
  /-- `EXA1` SKNP Vx -/
  | sknpVx (x : Reg)
  /-- `FX07` LD Vx,DT -/
  | ldVxDt (x : Reg)
  /-- `FX0A` LD Vx,K -/
  | ldVxK (x : Reg)
  /-- `FX15` LD DT,Vx -/
  | ldDtVx (x : Reg)
  /-- `FX18` LD ST,Vx -/
  | ldStVx (x : Reg)
  /-- `FX1E` ADD I,Vx -/
  | addIVx (x : Reg)
  /-- `FX29` LD F,Vx -/
  | ldFVx (x : Reg)
  /-- `FX33` LD B,Vx -/
  | ldBVx (x : Reg)
  /-- `FX55` LD [I],Vx: registers V0 to Vx -/
  | ldMemVx (x : Reg)
  /-- `FX65` LD Vx,[I]: registers V0 to Vx -/
  | ldVxMem (x : Reg)
  /-- The table's row unknown_instruction: a word that is none of the 34 (30_encoding.md R76, log 5). -/
  | unknownInstruction (op : Word)
  deriving DecidableEq, Repr

end Sys2Proof
end

