-- ==== Sys2Proof/WellFormed.lean ====
section
/-! DEFINITION. Well-formed instructions. The operand fields have the widths of their encodings by type, so the one check
left is that the word of `unknownInstruction` is one of the illegal words of 30_encoding.md R76. The patterns are written
here from R76 and R78, apart from the decoder, so that the two can be held against each other. -/

namespace Sys2Proof

/-- Nibble `k` of a word, 0 the lowest: R76's patterns are four hexadecimal digits. -/
def hexDigit (op : Word) (k : Nat) : Nat := op.toNat / 16 ^ k % 16

/-- The illegal words: the five patterns of R76 (`0??n`, `8XYn`, `EX?n`, `FX?n`, `FXy5`). -/
def illegalWord (op : Word) : Bool :=
  let n := hexDigit op 0
  let y := hexDigit op 1
  match hexDigit op 3 with
  | 0x0 => n ∉ [0x0, 0xE]
  | 0x8 => n ∈ [0x8, 0x9, 0xA, 0xB, 0xC, 0xD, 0xF]
  | 0xE => n ∉ [0x1, 0xE]
  | 0xF => n ∈ [0x0, 0x1, 0x2, 0x4, 0x6, 0xB, 0xC, 0xD, 0xF] || (n == 0x5 && y ∉ [0x1, 0x5, 0x6])
  | _   => false

/-- The words whose non-operand bits are as the canonical pattern prints them (R78, R80): what stays legal under
`STRICT_DECODE = true`, besides not being illegal. -/
def canonicalBits (op : Word) : Bool :=
  let nn := op.toNat % 256
  match hexDigit op 3 with
  | 0x0 => op.toNat ∈ [0x00E0, 0x00EE]
  | 0x5 => hexDigit op 0 == 0
  | 0x9 => hexDigit op 0 == 0
  | 0xE => nn ∈ [0x9E, 0xA1]
  | 0xF => nn ∈ [0x07, 0x0A, 0x15, 0x18, 0x1E, 0x29, 0x33, 0x55, 0x65]
  | _   => true

/-- The illegal words under either value of `STRICT_DECODE` (R76, R78). -/
def illegalWordWith (strict : Bool) (op : Word) : Bool :=
  illegalWord op || (strict && !canonicalBits op)

/-- Well-formedness under a value of `STRICT_DECODE`: an unknown word must be one that this decoder finds unknown. -/
def Instr.wellFormedWith (strict : Bool) : Instr → Bool
  | .cls | .ret | .jpNnn _ | .callNnn _ | .seVxNn _ _ | .sneVxNn _ _ | .seVxVy _ _ | .ldVxNn _ _ | .addVxNn _ _
  | .ldVxVy _ _ | .orVxVy _ _ | .andVxVy _ _ | .xorVxVy _ _ | .addVxVy _ _ | .subVxVy _ _ | .shrVx _ _ | .subnVxVy _ _
  | .shlVx _ _ | .sneVxVy _ _ | .ldINnn _ | .jpV0Nnn _ | .rndVxNn _ _ | .drwVxVyN _ _ _ | .skpVx _ | .sknpVx _
  | .ldVxDt _ | .ldVxK _ | .ldDtVx _ | .ldStVx _ | .addIVx _ | .ldFVx _ | .ldBVx _ | .ldMemVx _ | .ldVxMem _ => true
  | .unknownInstruction op => illegalWordWith strict op

/-- Well-formedness at the default `STRICT_DECODE = false` (R6). -/
def Instr.wellFormed (i : Instr) : Bool := i.wellFormedWith false

end Sys2Proof
end

