-- ==== Sys2Proof/Decode.lean ====
section
/-! DEFINITION. From bytes to an instruction and back (30_encoding.md). The decoder is the dispatch tree of R73: the top
nibble, then the low nibble in groups 0, 8, E and F, then the third nibble in group F with low nibble 5; the bits no level
looks at are ignored (R74). The encoder writes the canonical words of R75. Numeric values: log 6. -/

namespace Sys2Proof

/-! ### Bit fields and byte order -/

/-- `op[15:12]`, the group (00_scope.md R10). -/
def fieldG (op : Word) : Nibble := op.extractLsb' 12 4
/-- `op[11:8]` as a register number (R10). -/
def fieldX (op : Word) : Reg := ⟨(op.extractLsb' 8 4).toNat, (op.extractLsb' 8 4).isLt⟩
/-- `op[7:4]` as a register number (R10). -/
def fieldY (op : Word) : Reg := ⟨(op.extractLsb' 4 4).toNat, (op.extractLsb' 4 4).isLt⟩
/-- `op[3:0]` (R10). -/
def fieldN (op : Word) : Nibble := op.extractLsb' 0 4
/-- `op[7:0]` (R10). -/
def fieldNN (op : Word) : Byte := op.extractLsb' 0 8
/-- `op[11:0]` (R10). -/
def fieldNNN (op : Word) : Addr12 := op.extractLsb' 0 12

/-- `op[15:8]`, the byte at the lower address (20_memory.md R55). -/
def highByte (op : Word) : Byte := op.extractLsb' 8 8
/-- `op[7:0]`, the byte at the higher address (R55). -/
def lowByte (op : Word) : Byte := op.extractLsb' 0 8
/-- `hi ++ lo`: a fetched word, high byte first (R55). -/
def joinBytes (hi lo : Byte) : Word := hi ++ lo

/-! ### The dispatch tree -/

/-- Level 2 of group 0, on the low nibble (R73). There is no SYS instruction (R77). -/
def decodeGroup0 (op : Word) : Instr :=
  match (fieldN op).toNat with
  | 0x0 => .cls
  | 0xE => .ret
  | _   => .unknownInstruction op

/-- Level 2 of group 8, on the low nibble (R73). -/
def decodeGroup8 (op : Word) : Instr :=
  let x := fieldX op
  let y := fieldY op
  match (fieldN op).toNat with
  | 0x0 => .ldVxVy x y
  | 0x1 => .orVxVy x y
  | 0x2 => .andVxVy x y
  | 0x3 => .xorVxVy x y
  | 0x4 => .addVxVy x y
  | 0x5 => .subVxVy x y
  | 0x6 => .shrVx x y
  | 0x7 => .subnVxVy x y
  | 0xE => .shlVx x y
  | _   => .unknownInstruction op

/-- Level 2 of group E, on the low nibble (R73). -/
def decodeGroupE (op : Word) : Instr :=
  match (fieldN op).toNat with
  | 0x1 => .sknpVx (fieldX op)
  | 0xE => .skpVx (fieldX op)
  | _   => .unknownInstruction op

/-- Level 3: group F with low nibble 5, on the third nibble (R73). -/
def decodeGroupF5 (op : Word) : Instr :=
  match (fieldY op).val with
  | 0x1 => .ldDtVx (fieldX op)
  | 0x5 => .ldMemVx (fieldX op)
  | 0x6 => .ldVxMem (fieldX op)
  | _   => .unknownInstruction op

/-- Level 2 of group F, on the low nibble (R73). -/
def decodeGroupF (op : Word) : Instr :=
  let x := fieldX op
  match (fieldN op).toNat with
  | 0x3 => .ldBVx x
  | 0x5 => decodeGroupF5 op
  | 0x7 => .ldVxDt x
  | 0x8 => .ldStVx x
  | 0x9 => .ldFVx x
  | 0xA => .ldVxK x
  | 0xE => .addIVx x
  | _   => .unknownInstruction op

/-- Level 1, on the top nibble (R73); the sixteenth case is group F. -/
def decodeTree (op : Word) : Instr :=
  match (fieldG op).toNat with
  | 0x0 => decodeGroup0 op
  | 0x1 => .jpNnn (fieldNNN op)
  | 0x2 => .callNnn (fieldNNN op)
  | 0x3 => .seVxNn (fieldX op) (fieldNN op)
  | 0x4 => .sneVxNn (fieldX op) (fieldNN op)
  | 0x5 => .seVxVy (fieldX op) (fieldY op)
  | 0x6 => .ldVxNn (fieldX op) (fieldNN op)
  | 0x7 => .addVxNn (fieldX op) (fieldNN op)
  | 0x8 => decodeGroup8 op
  | 0x9 => .sneVxVy (fieldX op) (fieldY op)
  | 0xA => .ldINnn (fieldNNN op)
  | 0xB => .jpV0Nnn (fieldNNN op)
  | 0xC => .rndVxNn (fieldX op) (fieldNN op)
  | 0xD => .drwVxVyN (fieldX op) (fieldY op) (fieldN op)
  | 0xE => decodeGroupE op
  | _   => decodeGroupF op

/-! ### The opcode map (R75) -/

/-- A row of the opcode map: the mask and match the decoder tests, and the canonical ones (opcode_table.json). -/
structure OpcodeRow where
  mask           : Word
  bits           : Word
  canonicalMask  : Word
  canonicalBits  : Word
  deriving DecidableEq, Repr

/-- The row of R75 an instruction belongs to; an unknown instruction has none. -/
def opcodeRow : Instr → Option OpcodeRow
  | .cls            => some ⟨0xF00F, 0x0000, 0xFFFF, 0x00E0⟩
  | .ret            => some ⟨0xF00F, 0x000E, 0xFFFF, 0x00EE⟩
  | .jpNnn _        => some ⟨0xF000, 0x1000, 0xF000, 0x1000⟩
  | .callNnn _      => some ⟨0xF000, 0x2000, 0xF000, 0x2000⟩
  | .seVxNn _ _     => some ⟨0xF000, 0x3000, 0xF000, 0x3000⟩
  | .sneVxNn _ _    => some ⟨0xF000, 0x4000, 0xF000, 0x4000⟩
  | .seVxVy _ _     => some ⟨0xF000, 0x5000, 0xF00F, 0x5000⟩
  | .ldVxNn _ _     => some ⟨0xF000, 0x6000, 0xF000, 0x6000⟩
  | .addVxNn _ _    => some ⟨0xF000, 0x7000, 0xF000, 0x7000⟩
  | .ldVxVy _ _     => some ⟨0xF00F, 0x8000, 0xF00F, 0x8000⟩
  | .orVxVy _ _     => some ⟨0xF00F, 0x8001, 0xF00F, 0x8001⟩
  | .andVxVy _ _    => some ⟨0xF00F, 0x8002, 0xF00F, 0x8002⟩
  | .xorVxVy _ _    => some ⟨0xF00F, 0x8003, 0xF00F, 0x8003⟩
  | .addVxVy _ _    => some ⟨0xF00F, 0x8004, 0xF00F, 0x8004⟩
  | .subVxVy _ _    => some ⟨0xF00F, 0x8005, 0xF00F, 0x8005⟩
  | .shrVx _ _      => some ⟨0xF00F, 0x8006, 0xF00F, 0x8006⟩
  | .subnVxVy _ _   => some ⟨0xF00F, 0x8007, 0xF00F, 0x8007⟩
  | .shlVx _ _      => some ⟨0xF00F, 0x800E, 0xF00F, 0x800E⟩
  | .sneVxVy _ _    => some ⟨0xF000, 0x9000, 0xF00F, 0x9000⟩
  | .ldINnn _       => some ⟨0xF000, 0xA000, 0xF000, 0xA000⟩
  | .jpV0Nnn _      => some ⟨0xF000, 0xB000, 0xF000, 0xB000⟩
  | .rndVxNn _ _    => some ⟨0xF000, 0xC000, 0xF000, 0xC000⟩
  | .drwVxVyN _ _ _ => some ⟨0xF000, 0xD000, 0xF000, 0xD000⟩
  | .skpVx _        => some ⟨0xF00F, 0xE00E, 0xF0FF, 0xE09E⟩
  | .sknpVx _       => some ⟨0xF00F, 0xE001, 0xF0FF, 0xE0A1⟩
  | .ldVxDt _       => some ⟨0xF00F, 0xF007, 0xF0FF, 0xF007⟩
  | .ldVxK _        => some ⟨0xF00F, 0xF00A, 0xF0FF, 0xF00A⟩
  | .ldDtVx _       => some ⟨0xF0FF, 0xF015, 0xF0FF, 0xF015⟩
  | .ldStVx _       => some ⟨0xF00F, 0xF008, 0xF0FF, 0xF018⟩
  | .addIVx _       => some ⟨0xF00F, 0xF00E, 0xF0FF, 0xF01E⟩
  | .ldFVx _        => some ⟨0xF00F, 0xF009, 0xF0FF, 0xF029⟩
  | .ldBVx _        => some ⟨0xF00F, 0xF003, 0xF0FF, 0xF033⟩
  | .ldMemVx _      => some ⟨0xF0FF, 0xF055, 0xF0FF, 0xF055⟩
  | .ldVxMem _      => some ⟨0xF0FF, 0xF065, 0xF0FF, 0xF065⟩
  | .unknownInstruction _ => none

/-- Whether a word passes the canonical mask of the instruction it decodes to (R78). -/
def passesCanonicalMask (op : Word) (i : Instr) : Bool :=
  match opcodeRow i with
  | some r => op &&& r.canonicalMask == r.canonicalBits
  | none   => true

/-- The decoder of one word under either value of `STRICT_DECODE` (R73, R74, R78). -/
def decodeWordWith (strict : Bool) (op : Word) : Instr :=
  let i := decodeTree op
  if strict && !passesCanonicalMask op i then .unknownInstruction op else i

/-- The decoder of the modelled machine (log 7). -/
def decodeWord (op : Word) : Instr := decodeWordWith Machine.config.strictDecode op

/-- Why bytes are no instruction: fewer than two are left (R70). Every two bytes decode. -/
inductive DecodeError where
  | truncated
  deriving DecidableEq, Repr

/-- Decodes the instruction at the head of a list of bytes and answers it with the bytes left (R70: always two). -/
def decode : List Byte → Except DecodeError (Instr × List Byte)
  | hi :: lo :: rest => .ok (decodeWord (joinBytes hi lo), rest)
  | _                => .error .truncated

/-! ### The encoder -/

/-- A word from its four nibbles, `g` the highest (R71). -/
def nibbles (g : Nibble) (x y : Reg) (n : Nibble) : Word :=
  g ++ BitVec.ofFin (w := 4) x ++ BitVec.ofFin (w := 4) y ++ n

/-- Format `A` (R71). -/
def formatA (g : Nibble) (nnn : Addr12) : Word := g ++ nnn

/-- Formats `XB` and `XF` (R71). -/
def formatXB (g : Nibble) (x : Reg) (nn : Byte) : Word := g ++ BitVec.ofFin (w := 4) x ++ nn

/-- The canonical word of an instruction (R75, R80). -/
def encode : Instr → Word
  | .cls            => 0x00E0
  | .ret            => 0x00EE
  | .jpNnn nnn      => formatA 0x1 nnn
  | .callNnn nnn    => formatA 0x2 nnn
  | .seVxNn x nn    => formatXB 0x3 x nn
  | .sneVxNn x nn   => formatXB 0x4 x nn
  | .seVxVy x y     => nibbles 0x5 x y 0x0
  | .ldVxNn x nn    => formatXB 0x6 x nn
  | .addVxNn x nn   => formatXB 0x7 x nn
  | .ldVxVy x y     => nibbles 0x8 x y 0x0
  | .orVxVy x y     => nibbles 0x8 x y 0x1
  | .andVxVy x y    => nibbles 0x8 x y 0x2
  | .xorVxVy x y    => nibbles 0x8 x y 0x3
  | .addVxVy x y    => nibbles 0x8 x y 0x4
  | .subVxVy x y    => nibbles 0x8 x y 0x5
  | .shrVx x y      => nibbles 0x8 x y 0x6
  | .subnVxVy x y   => nibbles 0x8 x y 0x7
  | .shlVx x y      => nibbles 0x8 x y 0xE
  | .sneVxVy x y    => nibbles 0x9 x y 0x0
  | .ldINnn nnn     => formatA 0xA nnn
  | .jpV0Nnn nnn    => formatA 0xB nnn
  | .rndVxNn x nn   => formatXB 0xC x nn
  | .drwVxVyN x y n => nibbles 0xD x y n
  | .skpVx x        => formatXB 0xE x 0x9E
  | .sknpVx x       => formatXB 0xE x 0xA1
  | .ldVxDt x       => formatXB 0xF x 0x07
  | .ldVxK x        => formatXB 0xF x 0x0A
  | .ldDtVx x       => formatXB 0xF x 0x15
  | .ldStVx x       => formatXB 0xF x 0x18
  | .addIVx x       => formatXB 0xF x 0x1E
  | .ldFVx x        => formatXB 0xF x 0x29
  | .ldBVx x        => formatXB 0xF x 0x33
  | .ldMemVx x      => formatXB 0xF x 0x55
  | .ldVxMem x      => formatXB 0xF x 0x65
  | .unknownInstruction op => op

/-- The two bytes of an instruction, high byte first (20_memory.md R55, R80). -/
def encodeBytes (i : Instr) : List Byte := [highByte (encode i), lowByte (encode i)]

/-! ### The opcode table's numbering of bits -/

/-- The bytes in which the hardware stores the word `w` of `nbits` bits, high byte at the lower address (R55); the bits
above `nbits` are 0. -/
def tableWordBytes (nbits w : Nat) : List Byte :=
  let op : Word := BitVec.ofNat 16 (w % 2 ^ nbits)
  [highByte op, lowByte op]

/-- What the decoder reads from the word `w` of the opcode table. -/
def decodeTableWord (nbits w : Nat) : Option Instr :=
  match decode (tableWordBytes nbits w) with
  | .ok (i, _) => some i
  | .error _   => none

end Sys2Proof
end

