-- ==== Sys2Proof/Machine/State.lean ====
section
/-! DEFINITION. The state of CHIP8-CORE (10_state.md R20 to R34, R39): every element the spec gives the machine, as plain
data, and the counter of random draws, which is the model's own (log 3). -/

namespace Sys2Proof.Machine

/-- The error code `ERR` (10_state.md R33), an enumeration; its numbers are `Config.errCode` (log 13). -/
inductive ErrorCode where
  /-- `NONE`, set by a successful Load -/
  | none
  /-- `UNK`, unknown-instruction -/
  | unk
  /-- `SOV`, stack-overflow -/
  | sov
  /-- `SUN`, stack-underflow -/
  | sun
  /-- `NOROM`, no-rom-loaded, set by Init -/
  | norom
  /-- `AOB`, address-out-of-bounds -/
  | aob
  deriving DecidableEq, Repr

/-- The four codes a run-time fatal condition can latch (60_exceptions.md R191 to R194). -/
inductive FatalCode where
  | unk | sov | sun | aob
  deriving DecidableEq, Repr

/-- MEM as the bytes that differ from the reset contents, addresses strictly rising (log 20; `Memory.wf` in Ops.lean). -/
abbrev Memory := List Host.Cell

/-- FB as 32 rows of 64 pixels: bit `px` of row `py` is `FB[px, py]` (10_state.md R28, log 21). -/
abbrev Frame := Vector (BitVec 64) 32

/-- The whole state of the machine. -/
structure State where
  /-- V0 to VF (R20); VF is also the flag register (R21) -/
  v        : Vector Byte 16
  /-- I (R24) -/
  i        : Word
  /-- PC (R22) -/
  pc       : Word
  /-- SP, 0 to 16 (R25, log 16) -/
  sp       : Fin 17
  /-- STACK[0..15] (R25) -/
  stack    : Vector Word 16
  /-- DT (R26) -/
  dt       : Byte
  /-- ST (R26) -/
  st       : Byte
  /-- KEY[0..15] (R27): bit `k` is `KEY[k]` -/
  keys     : Word
  /-- FB (R28) -/
  fb       : Frame
  /-- DRAW (R29) -/
  draw     : Bool
  /-- WAIT (R30) -/
  wait     : Bool
  /-- OPCODE (R31) -/
  opcode   : Word
  /-- RUNNING (R32) -/
  running  : Bool
  /-- ERR (R33) -/
  err      : ErrorCode
  /-- MEM (R34) -/
  mem      : Memory
  /-- The model's own field: how many random bytes have been drawn (log 3). -/
  rndDraws : Nat
  deriving DecidableEq, Repr

/-- Why a step stops with a fault. There is no reason: every fault condition of the spec is a next state (the machine
halts with `ERR` latched, 60_exceptions.md R195), so this closed type has no constructor and no instruction faults (log 4,
safe). -/
inductive Fault
  deriving DecidableEq, Repr

/-- Why a step is refused. -/
inductive Refusal where
  /-- Raised by `exec` for an instruction that has no meaning yet, by its mnemonic; no arm raises it. Safe: the model stops
  where the hardware goes on. -/
  | notModelled (mnemonic : String)
  deriving DecidableEq, Repr

/-- What an operation of the machine answers. -/
abbrev Result := Host.Outcome State Fault Refusal

/-- The state after Init (10_state.md R39, 70_reset_and_hazards.md R221), which is the hardware reset (R220). Memory lists
nothing: it reads as its reset contents, the font and zeros. -/
def State.reset : State where
  v        := Vector.replicate 16 0
  i        := 0
  pc       := 0x200
  sp       := 0
  stack    := Vector.replicate 16 0
  dt       := 0
  st       := 0
  keys     := 0
  fb       := Vector.replicate 32 0
  draw     := false
  wait     := false
  opcode   := 0
  running  := false
  err      := .norom
  mem      := []
  rndDraws := 0

end Sys2Proof.Machine
end

