-- ==== Sys2Proof/Machine/Ops.lean ====
section
/-! DEFINITION. The operations every meaning is built from: memory (20_memory.md), registers, the program counter, the call
stack, the frame buffer, raising a fatal condition (60_exceptions.md R195), the random draw and the parts of `Step` that
come before execution (40_step_cycle.md). -/

namespace Sys2Proof.Machine

/-! ### Memory -/

/-- What an address that memory does not list reads as: the contents after Init, the font at 0x000 to 0x04F and 0 elsewhere
(20_memory.md R51, R58; log 20). -/
def unlistedByte (a : Nat) : Byte := config.font.getD a 0

/-- `MEM[a]`. -/
def Memory.read : Memory → Nat → Byte
  | [], a => unlistedByte a
  | (b, u) :: rest, a => if a = b then u else Memory.read rest a

/-- A cell put in its place by address. -/
def Memory.insertCell : Memory → Host.Cell → Memory
  | [], c => [c]
  | d :: rest, c => if c.1 < d.1 then c :: d :: rest else d :: Memory.insertCell rest c

/-- `MEM[a] <- v`, keeping the canonical form: a byte equal to the reset contents is not listed. -/
def Memory.write (m : Memory) (a : Nat) (v : Byte) : Memory :=
  let others := m.filter fun c => c.1 != a
  if v = unlistedByte a then others else Memory.insertCell others (a, v)

/-- Bytes at consecutive addresses, written in ascending order (20_memory.md R56, R65). -/
def Memory.writeBytes : Memory → Nat → List Byte → Memory
  | m, _, []      => m
  | m, a, b :: bs => Memory.writeBytes (m.write a b) (a + 1) bs

/-- The canonical form (log 20): addresses strictly rising and below 4096, and no byte equal to its reset contents. -/
abbrev Memory.wf (m : Memory) : Prop :=
  m.Pairwise (fun c d => c.1 < d.1) ∧ ∀ c ∈ m, c.1 < memSize ∧ c.2 ≠ unlistedByte c.1

/-- The range check of an access of `len` bytes from `start`, over the unbounded naturals (20_memory.md R54, R176): an
empty range checks nothing. -/
def inRange (start len : Nat) : Bool := len == 0 || decide (start + len - 1 < memSize)

/-- `MemRead(a, 1)` (20_memory.md R52); `none` is the fatal condition address-out-of-bounds. -/
def memRead (a : Nat) (s : State) : Option Byte :=
  if inRange a 1 then some (s.mem.read a) else none

/-- `len` bytes from `start` in ascending order, the whole range checked first (R54, R65); `none` is AOB. -/
def readBlock (start len : Nat) (s : State) : Option (List Byte) :=
  if inRange start len then some ((List.range len).map fun k => s.mem.read (start + k)) else none

/-! ### Updates of the state -/

/-- `V[x]`. -/
def State.reg (s : State) (x : Reg) : Byte := s.v[x]

/-- VF, the flag register (10_state.md R21). -/
def flagReg : Reg := 0xF

/-- `V[x] <- b`: no register is hard-wired (10_state.md R20). -/
def State.writeReg (s : State) (x : Reg) (b : Byte) : State := { s with v := s.v.set x b }

/-- `I <- w`. -/
def State.setI (s : State) (w : Word) : State := { s with i := w }

/-- `pc <- w`. -/
def State.setPc (s : State) (w : Word) : State := { s with pc := w }

/-- `pc <- PC + 2`, the auto-advance (10_state.md R23, 40_step_cycle.md R95). -/
def State.advance (s : State) : State := { s with pc := s.pc + 2 }

/-- `DT <- b`. -/
def State.setDt (s : State) (b : Byte) : State := { s with dt := b }

/-- `ST <- b`. -/
def State.setSt (s : State) (b : Byte) : State := { s with st := b }

/-- Replaces MEM. -/
def State.setMem (s : State) (m : Memory) : State := { s with mem := m }

/-- A new frame: FB replaced and `DRAW <- 1` (10_state.md R29). -/
def State.showFrame (s : State) (fb : Frame) : State := { s with fb := fb, draw := true }

/-- `DRAW <- 0` (43_display.md R145). -/
def State.clearDraw (s : State) : State := { s with draw := false }

/-- `WAIT <- b` (10_state.md R30). -/
def State.setWait (s : State) (b : Bool) : State := { s with wait := b }

/-- `KEY[..] <- mask` (44_keys_timers.md R157). -/
def State.setKeys (s : State) (mask : Word) : State := { s with keys := mask }

/-- `OPCODE <- op` (40_step_cycle.md R93). -/
def State.latchOpcode (s : State) (op : Word) : State := { s with opcode := op }

/-- The call stack replaced. -/
def State.setStack (s : State) (stack : Vector Word 16) (sp : Fin 17) : State := { s with stack := stack, sp := sp }

/-- One more random byte has been drawn (log 3). -/
def State.countDraw (s : State) : State := { s with rndDraws := s.rndDraws + 1 }

/-! ### Fatal conditions -/

/-- The value of `ERR` for a fatal condition (60_exceptions.md, table of section 2). -/
def FatalCode.toError : FatalCode → ErrorCode
  | .unk => .unk
  | .sov => .sov
  | .sun => .sun
  | .aob => .aob

/-- `ERR <- code; RUNNING <- 0`, and nothing else (60_exceptions.md R195). -/
def State.halt (s : State) (code : FatalCode) : State := { s with err := code.toError, running := false }

/-- `raise Fatal(code)` (00_scope.md R11, 60_exceptions.md R195): the machine's one kind of exception. It is a next state,
the halted one; there is no handler and no return from it (R198), the ways out being Load and Init in HostOps.lean. -/
def raiseFatal (code : FatalCode) (s : State) : Result := .next (s.halt code)

/-! ### Block transfers -/

/-- The bytes `bs` stored from `start` in ascending order, the whole range checked first (20_memory.md R53, R54, R65);
`none` is AOB. -/
def writeBlock (start : Nat) (bs : List Byte) (s : State) : Option State :=
  if inRange start bs.length then some (s.setMem (s.mem.writeBytes start bs)) else none

/-- `V[k] <- b` for the listed bytes, ascending from register `k` (45_index_memory.md R175). -/
def loadRegs : Nat → List Byte → State → State
  | _, [], s      => s
  | k, b :: bs, s => loadRegs (k + 1) bs (if h : k < 16 then s.writeReg ⟨k, h⟩ b else s)

/-- The registers `V[0]` to `V[x]`, ascending (45_index_memory.md R174). -/
def regsUpTo (x : Reg) (s : State) : List Byte := s.v.toList.take (x.val + 1)

/-! ### Results, flags and the program counter -/

/-- Destination first, flag second (42_alu.md R133): with `x = 0xF` the flag is what remains. -/
def State.writeResultFlag (s : State) (x : Reg) (r f : Byte) : State := (s.writeReg x r).writeReg flagReg f

/-- `pc <- PC + 4` when the condition holds, else `PC + 2` (10_state.md R23). -/
def skipIf (cond : Bool) (s : State) : Result := .next (s.setPc (if cond then s.pc + 4 else s.pc + 2))

/-- `if t >= 4096: raise Fatal(AOB)`, else `pc <- t` (41_control_flow.md R100, R101). -/
def jumpTo (t : Nat) (s : State) : Result :=
  if memSize ≤ t then raiseFatal .aob s else .next (s.setPc (BitVec.ofNat 16 t))

/-! ### The call stack -/

/-- `STACK[SP] <- PC; SP <- SP + 1` (41_control_flow.md R102); `none` when `SP = 16`, stack-overflow. -/
def pushPc (s : State) : Option State :=
  if h : s.sp.val < 16 then some (s.setStack (s.stack.set s.sp.val s.pc h) ⟨s.sp.val + 1, by omega⟩) else none

/-- The top entry, and the state with `SP <- SP - 1`; the entry is not erased (41_control_flow.md R103); `none` when
`SP = 0`, stack-underflow. -/
def popStack (s : State) : Option (Word × State) :=
  if h : 0 < s.sp.val then
    some (s.stack[s.sp.val - 1]'(by have := s.sp.isLt; omega), s.setStack s.stack ⟨s.sp.val - 1, by have := s.sp.isLt; omega⟩)
  else none

/-! ### The frame buffer -/

/-- `FB[px, py]` (10_state.md R28). -/
def Frame.pixel (fb : Frame) (px py : Nat) : Bool :=
  if h : py < 32 then fb[py].getLsbD px else false

/-- `FB[px, py] <- FB[px, py] ^ 1`. -/
def Frame.flip (fb : Frame) (px py : Nat) : Frame :=
  if h : py < 32 then fb.set py (fb[py] ^^^ BitVec.twoPow 64 px) else fb

/-- All pixels unlit. -/
def Frame.blank : Frame := Vector.replicate 32 0

/-! ### The random byte -/

/-- `RandomByte()` (42_alu.md R132): the byte of this draw, a free value (log 3). -/
def randomByte (s : State) : Byte := Config.randomByte s.rndDraws

/-! ### The parts of Step before execution (40_step_cycle.md) -/

/-- Step acts only when `RUNNING = 1` and `WAIT = 0` (R90). -/
def State.active (s : State) : Bool := s.running && !s.wait

/-- `MemRead(PC, 2)`: the word at PC, high byte first (20_memory.md R55, 40_step_cycle.md R93); `none` when `PC > 0xFFE`
(R92). -/
def fetchWord (s : State) : Option Word :=
  match memRead s.pc.toNat s, memRead (s.pc.toNat + 1) s with
  | some hi, some lo => some (joinBytes hi lo)
  | _, _             => none

/-- Where the next fetch finds a placed word: PC, or the entry point 0x200 when no word fits at PC (log 2). -/
def fetchAddress (s : State) : Word := if s.pc.toNat ≤ 0xFFE then s.pc else 0x200

/-- The bytes of a word placed where the next step fetches, on a machine that is running and not waiting; this stands for
the Load of a program (log 2). -/
def placeWord (bytes : List Byte) (s : State) : State :=
  { s with
    pc := fetchAddress s
    mem := s.mem.writeBytes (fetchAddress s).toNat bytes
    running := true
    err := .none
    wait := false }

end Sys2Proof.Machine
end

