-- ==== Sys2Proof/Machine/Operands.lean ====
section
/-! DEFINITION. The operand forms (30_encoding.md R72, 45_index_memory.md R176): registers and immediates are used as they
are, and the forms below need a computation. Where a parameter of 00_scope.md R6 selects the operand, it is an argument, and
the meanings pass the configured value. -/

namespace Sys2Proof.Machine

/-- The address operand `nnn`, 0 to 4095 (R72). -/
def addressOperand (nnn : Addr12) : Nat := nnn.toNat

/-- `zext_16(nnn)` (R72). -/
def zextAddress (nnn : Addr12) : Word := nnn.setWidth 16

/-- What JP V0,nnn adds to `nnn`: V0, or I under `JUMP_BASE = I` (41_control_flow.md R101, 92_eei_decisions.md D12). -/
def jumpBaseValue : JumpBase → State → Nat
  | .v0, s     => (s.reg 0).toNat
  | .indexI, s => s.i.toNat

/-- The operand of SHR and SHL: `V[x]`, or `V[y]` under `SHIFT_SOURCE = Vy` (42_alu.md R129, D14). -/
def shiftOperand : ShiftSource → Reg → Reg → State → Byte
  | .vx, x, _, s => s.reg x
  | .vy, _, y, s => s.reg y

/-- The key SKP and SKNP consult, `V[x][3:0]` (44_keys_timers.md R155, D20). -/
def keyIndex (x : Reg) (s : State) : Nat := (s.reg x).toNat % 16

/-- `KEY[V[x][3:0]]`. -/
def keyDown (x : Reg) (s : State) : Bool := s.keys.getLsbD (keyIndex x s)

/-- The address in I, over the unbounded naturals (45_index_memory.md R176). -/
def indexAddress (s : State) : Nat := s.i.toNat

/-- The count of FX55 and FX65: registers `V[0]` to `V[x]` (R72). -/
def blockLength (x : Reg) : Nat := x.val + 1

/-- The address of glyph `V[x]`, not masked (45_index_memory.md R172, D16). -/
def glyphAddress (x : Reg) (s : State) : Word := BitVec.ofNat 16 ((s.reg x).toNat * glyphBytes)

/-- The hundreds, tens and ones digits of a byte (45_index_memory.md R173). -/
def decimalDigits (b : Byte) : List Byte :=
  [BitVec.ofNat 8 (b.toNat / 100), BitVec.ofNat 8 (b.toNat / 10 % 10), BitVec.ofNat 8 (b.toNat % 10)]

end Sys2Proof.Machine
end

