-- ==== Sys2Proof/Machine/Alu.lean ====
section
/-! DEFINITION. Register and ALU instructions (42_alu.md R120 to R132). None accesses memory or raises a fatal condition,
and each ends with `pc <- PC + 2`. -/

namespace Sys2Proof.Machine

/-- `V[x] <- b; pc <- PC + 2`, no flag. -/
def loadReg (x : Reg) (b : Byte) (s : State) : Result := .next (s.writeReg x b).advance

/-- `V[x] <- r; VF <- f; pc <- PC + 2` (R133). -/
def loadRegFlag (x : Reg) (r f : Byte) (s : State) : Result := .next (s.writeResultFlag x r f).advance

/-- LD Vx,nn (R120). -/
def execLdVxNn (x : Reg) (nn : Byte) (s : State) : Result := loadReg x nn s

/-- ADD Vx,nn (R121): wraps, no flag. -/
def execAddVxNn (x : Reg) (nn : Byte) (s : State) : Result := loadReg x (s.reg x + nn) s

/-- LD Vx,Vy (R122). -/
def execLdVxVy (x y : Reg) (s : State) : Result := loadReg x (s.reg y) s

/-- OR Vx,Vy (R123): VF unchanged (D13). -/
def execOrVxVy (x y : Reg) (s : State) : Result := loadReg x (s.reg x ||| s.reg y) s

/-- AND Vx,Vy (R124). -/
def execAndVxVy (x y : Reg) (s : State) : Result := loadReg x (s.reg x &&& s.reg y) s

/-- XOR Vx,Vy (R125). -/
def execXorVxVy (x y : Reg) (s : State) : Result := loadReg x (s.reg x ^^^ s.reg y) s

/-- ADD Vx,Vy (R126). -/
def execAddVxVy (x y : Reg) (s : State) : Result :=
  loadRegFlag x (s.reg x + s.reg y) (carryFlag (s.reg x) (s.reg y)) s

/-- SUB Vx,Vy (R127): the minuend is `V[x]`. -/
def execSubVxVy (x y : Reg) (s : State) : Result :=
  loadRegFlag x (s.reg x - s.reg y) (noBorrowFlag (s.reg x) (s.reg y)) s

/-- SUBN Vx,Vy (R130): the minuend is `V[y]`. -/
def execSubnVxVy (x y : Reg) (s : State) : Result :=
  loadRegFlag x (s.reg y - s.reg x) (noBorrowFlag (s.reg y) (s.reg x)) s

/-- SHR under either value of `SHIFT_SOURCE` (R128, R129). -/
def shiftRight (src : ShiftSource) (x y : Reg) (s : State) : Result :=
  loadRegFlag x (shiftOperand src x y s >>> 1) (lowBitFlag (shiftOperand src x y s)) s

/-- SHL under either value of `SHIFT_SOURCE` (R131, R129). -/
def shiftLeft (src : ShiftSource) (x y : Reg) (s : State) : Result :=
  loadRegFlag x (shiftOperand src x y s <<< 1) (highBitFlag (shiftOperand src x y s)) s

/-- SHR Vx (R128). -/
def execShrVx (x y : Reg) (s : State) : Result := shiftRight config.shiftSource x y s

/-- SHL Vx (R131). -/
def execShlVx (x y : Reg) (s : State) : Result := shiftLeft config.shiftSource x y s

/-- RND Vx,nn (R132): the drawn byte is a free value (log 3). -/
def execRndVxNn (x : Reg) (nn : Byte) (s : State) : Result := loadReg x (randomByte s &&& nn) s.countDraw

end Sys2Proof.Machine
end

