-- ==== Sys2Proof/Machine/ControlFlow.lean ====
section
/-! DEFINITION. Jumps, calls, returns and register skips (41_control_flow.md R100 to R107). None writes a general register.
-/

namespace Sys2Proof.Machine

/-- RET (R103): `pc <- top + 2`, not bound-checked; the entry is kept. -/
def execRet (s : State) : Result :=
  match popStack s with
  | none => raiseFatal .sun s
  | some (top, s') => .next (s'.setPc (top + 2))

/-- JP nnn (R100). -/
def execJpNnn (nnn : Addr12) (s : State) : Result := jumpTo (addressOperand nnn) s

/-- CALL nnn (R102): the address is checked first, then the stack; the pushed value is the address of the CALL itself. -/
def execCallNnn (nnn : Addr12) (s : State) : Result :=
  if memSize ≤ addressOperand nnn then raiseFatal .aob s
  else
    match pushPc s with
    | none => raiseFatal .sov s
    | some s' => .next (s'.setPc (zextAddress nnn))

/-- SE Vx,nn (R104). -/
def execSeVxNn (x : Reg) (nn : Byte) (s : State) : Result := skipIf (s.reg x == nn) s

/-- SNE Vx,nn (R105). -/
def execSneVxNn (x : Reg) (nn : Byte) (s : State) : Result := skipIf (s.reg x != nn) s

/-- SE Vx,Vy (R106). -/
def execSeVxVy (x y : Reg) (s : State) : Result := skipIf (s.reg x == s.reg y) s

/-- SNE Vx,Vy (R107). -/
def execSneVxVy (x y : Reg) (s : State) : Result := skipIf (s.reg x != s.reg y) s

/-- JP V0,nnn under either value of `JUMP_BASE` (R101, 92_eei_decisions.md D12): the sum does not wrap. -/
def jumpIndexed (base : JumpBase) (nnn : Addr12) (s : State) : Result :=
  jumpTo (addressOperand nnn + jumpBaseValue base s) s

/-- JP V0,nnn (R101). -/
def execJpV0Nnn (nnn : Addr12) (s : State) : Result := jumpIndexed config.jumpBase nnn s

end Sys2Proof.Machine
end

