-- ==== Sys2Proof/Machine/Display.lean ====
section
/-! DEFINITION. CLS and DRW (43_display.md R140 to R144): the frame-buffer writer and the collision detector. -/

namespace Sys2Proof.Machine

/-- CLS (R140): DRAW is set even when the screen was clear. -/
def execCls (s : State) : Result := .next (s.showFrame Frame.blank).advance

/-- The frame buffer while a sprite is drawn, and whether a lit pixel has been turned off so far (`coll`). -/
structure Drawing where
  fb       : Frame
  collided : Bool
  deriving DecidableEq, Repr

/-- Where a sprite pixel falls: dropped outside the screen, or, under `SPRITE_WRAP = true`, reduced modulo 64 and 32 (R142
(a), (b); R144). -/
def placePixel (wrap : Bool) (px py : Nat) : Option (Nat × Nat) :=
  if wrap then some (px % fbWidth, py % fbHeight)
  else if px < fbWidth ∧ py < fbHeight then some (px, py) else none

/-- One set bit of the sprite: a lit pixel collides, and the pixel is inverted (R142). -/
def plotPixel (wrap : Bool) (px py : Nat) (d : Drawing) : Drawing :=
  match placePixel wrap px py with
  | none          => d
  | some (qx, qy) => { fb := Frame.flip d.fb qx qy, collided := d.collided || Frame.pixel d.fb qx qy }

/-- One row of the sprite, columns ascending from `c`; column offset `c` is bit `7 - c` (R141). -/
def drawColumns (wrap : Bool) (x0 py : Nat) (b : Byte) : List Nat → Drawing → Drawing
  | [], d      => d
  | c :: cs, d =>
    drawColumns wrap x0 py b cs (if b.getLsbD (7 - c) then plotPixel wrap (x0 + c) py d else d)

/-- The eight columns of a row. -/
def drawRow (wrap : Bool) (x0 py : Nat) (b : Byte) (d : Drawing) : Drawing :=
  drawColumns wrap x0 py b [0, 1, 2, 3, 4, 5, 6, 7] d

/-- The rows of the sprite, from row `py` down (R142). -/
def drawRows (wrap : Bool) (x0 : Nat) : Nat → List Byte → Drawing → Drawing
  | _, [], d       => d
  | py, b :: bs, d => drawRows wrap x0 (py + 1) bs (drawRow wrap x0 py b d)

/-- DRW under either value of `SPRITE_WRAP` (R142, R144): all sprite bytes are read, and the range checked, before anything
is drawn; the coordinates are the old register values, VF included (R142 (e)). -/
def drawSprite (wrap : Bool) (x y : Reg) (n : Nibble) (s : State) : Result :=
  match readBlock (indexAddress s) n.toNat s with
  | none => raiseFatal .aob s
  | some rows =>
    let d := drawRows wrap (s.reg x).toNat (s.reg y).toNat rows { fb := s.fb, collided := false }
    .next ((s.showFrame d.fb).writeReg flagReg (collisionFlag d.collided)).advance

/-- DRW Vx,Vy,n (R142). -/
def execDrwVxVyN (x y : Reg) (n : Nibble) (s : State) : Result := drawSprite config.spriteWrap x y n s

end Sys2Proof.Machine
end

