-- ==== Sys2Proof/Machine/IndexMemory.lean ====
section
/-! DEFINITION. Index-register and memory instructions (45_index_memory.md R170 to R176). -/

namespace Sys2Proof.Machine

/-- LD I,nnn (R170): the bound check is the spec's, though a 12-bit `nnn` never fails it. -/
def execLdINnn (nnn : Addr12) (s : State) : Result :=
  if memSize ≤ addressOperand nnn then raiseFatal .aob s else .next (s.setI (zextAddress nnn)).advance

/-- ADD I,Vx (R171): I is reduced modulo 65536, the flag is taken from the unreduced sum (D15). -/
def execAddIVx (x : Reg) (s : State) : Result :=
  .next ((s.setI (BitVec.ofNat 16 (s.i.toNat + (s.reg x).toNat))).writeReg flagReg (indexOverflowFlag s.i (s.reg x))).advance

/-- LD F,Vx (R172). -/
def execLdFVx (x : Reg) (s : State) : Result := .next (s.setI (glyphAddress x s)).advance

/-- LD B,Vx (R173). -/
def execLdBVx (x : Reg) (s : State) : Result :=
  match writeBlock (indexAddress s) (decimalDigits (s.reg x)) s with
  | none    => raiseFatal .aob s
  | some s' => .next s'.advance

/-- `I <- I + x + 1` (R174, R175). -/
def State.stepIndex (s : State) (x : Reg) : State := s.setI (s.i + BitVec.ofNat 16 (blockLength x))

/-- LD [I],Vx (R174). -/
def execLdMemVx (x : Reg) (s : State) : Result :=
  match writeBlock (indexAddress s) (regsUpTo x s) s with
  | none    => raiseFatal .aob s
  | some s' => .next (s'.stepIndex x).advance

/-- LD Vx,[I] (R175). -/
def execLdVxMem (x : Reg) (s : State) : Result :=
  match readBlock (indexAddress s) (blockLength x) s with
  | none    => raiseFatal .aob s
  | some bs => .next ((loadRegs 0 bs s).stepIndex x).advance

end Sys2Proof.Machine
end

