-- ==== Sys2Proof/Machine/KeysTimers.lean ====
section
/-! DEFINITION. Key and timer instructions (44_keys_timers.md R150 to R156). None writes a flag or raises a fatal
condition. -/

namespace Sys2Proof.Machine

/-- SKP Vx (R150). -/
def execSkpVx (x : Reg) (s : State) : Result := skipIf (keyDown x s) s

/-- SKNP Vx (R151): skips when the key is not down, a level. -/
def execSknpVx (x : Reg) (s : State) : Result := skipIf (!keyDown x s) s

/-- LD Vx,DT (R152). -/
def execLdVxDt (x : Reg) (s : State) : Result := .next (s.writeReg x s.dt).advance

/-- LD DT,Vx (R153). -/
def execLdDtVx (x : Reg) (s : State) : Result := .next (s.setDt (s.reg x)).advance

/-- LD ST,Vx (R154). -/
def execLdStVx (x : Reg) (s : State) : Result := .next (s.setSt (s.reg x)).advance

/-- LD Vx,K (R156): only WAIT and PC change; the register, which `OPCODE[11:8]` names, is written by the KeyUpdate that ends
the wait (HostOps.lean), so the operand plays no part here. -/
def execLdVxK (_x : Reg) (s : State) : Result := .next (s.setWait true).advance

end Sys2Proof.Machine
end

