-- ==== Sys2Proof/Machine/Unknown.lean ====
section
/-! DEFINITION. The unknown instruction (30_encoding.md R76, 60_exceptions.md R191). -/

namespace Sys2Proof.Machine

/-- `raise Fatal(UNK)`, PC not advanced; the word is in OPCODE already (R191, 40_step_cycle.md R93). -/
def execUnknownInstruction (_op : Word) (s : State) : Result := raiseFatal .unk s

end Sys2Proof.Machine
end

