-- ==== Sys2Proof/Machine/Step.lean ====
section
/-! DEFINITION. The host operation Step (40_step_cycle.md R90 to R98) and the placing of a word where it fetches. -/

namespace Sys2Proof.Machine

/-- Step (40_step_cycle.md section 5): nothing unless running and not waiting (R90); the fetch bound check (R92); the fetch,
which latches OPCODE (R93); decode and execute (R94, R95). Every case is a next state. -/
def step (s : State) : Host.Outcome State Fault Refusal :=
  if s.active then
    match fetchWord s with
    | none    => raiseFatal .aob s
    | some op => exec (decodeWord op) (s.latchOpcode op)
  else .next s

/-- The word `w` of the opcode table placed so that the next step fetches and runs it (log 2). -/
def State.withFetchWord (s : State) (nbits w : Nat) : State := placeWord (tableWordBytes nbits w) s

end Sys2Proof.Machine
end

