-- ==== Sys2Proof/Machine/Assembly.lean ====
section
/-! DEFINITION. The assembler's syntax (30_encoding.md R79, R80): a line is a mnemonic and its operands, destination first.
The names are general knowledge by the spec's mark and have no effect on behaviour (92_eei_decisions.md D29, log 24). -/

namespace Sys2Proof.Machine

/-- The mnemonics of R75, each once, and the directive `DB` of R80. -/
inductive Mnemonic where
  | cls | ret | jp | call | se | sne | ld | add | or | and | xor | sub | shr | subn | shl | rnd | drw | skp | sknp | db
  deriving DecidableEq, Repr

/-- The operands of R79. -/
inductive AsmOperand where
  /-- `Vx` -/
  | reg (x : Reg)
  /-- `nn`, a byte -/
  | byte (nn : Byte)
  /-- `nnn`, a 12-bit address -/
  | address (nnn : Addr12)
  /-- `n`, a nibble -/
  | nibble (n : Nibble)
  /-- `I` -/
  | indexReg
  /-- `DT` -/
  | delayTimer
  /-- `ST` -/
  | soundTimer
  /-- `K`, the next key press -/
  | key
  /-- `F`, the font glyph address -/
  | font
  /-- `B`, binary-coded decimal -/
  | decimal
  /-- `[I]`, memory starting at the address in I -/
  | atIndex
  deriving DecidableEq, Repr

/-- One line (R79). -/
structure AsmLine where
  mnemonic : Mnemonic
  operands : List AsmOperand
  deriving DecidableEq, Repr

/-- The line of an instruction. The second operand of SHR and SHL, which only fills the `y` field, is written unless it is
V0; a word that is no instruction is two data bytes (R79, R80). -/
def disassemble : Instr → AsmLine
  | .cls            => ⟨.cls, []⟩
  | .ret            => ⟨.ret, []⟩
  | .jpNnn nnn      => ⟨.jp, [.address nnn]⟩
  | .callNnn nnn    => ⟨.call, [.address nnn]⟩
  | .seVxNn x nn    => ⟨.se, [.reg x, .byte nn]⟩
  | .sneVxNn x nn   => ⟨.sne, [.reg x, .byte nn]⟩
  | .seVxVy x y     => ⟨.se, [.reg x, .reg y]⟩
  | .ldVxNn x nn    => ⟨.ld, [.reg x, .byte nn]⟩
  | .addVxNn x nn   => ⟨.add, [.reg x, .byte nn]⟩
  | .ldVxVy x y     => ⟨.ld, [.reg x, .reg y]⟩
  | .orVxVy x y     => ⟨.or, [.reg x, .reg y]⟩
  | .andVxVy x y    => ⟨.and, [.reg x, .reg y]⟩
  | .xorVxVy x y    => ⟨.xor, [.reg x, .reg y]⟩
  | .addVxVy x y    => ⟨.add, [.reg x, .reg y]⟩
  | .subVxVy x y    => ⟨.sub, [.reg x, .reg y]⟩
  | .shrVx x y      => ⟨.shr, if y = 0 then [.reg x] else [.reg x, .reg y]⟩
  | .subnVxVy x y   => ⟨.subn, [.reg x, .reg y]⟩
  | .shlVx x y      => ⟨.shl, if y = 0 then [.reg x] else [.reg x, .reg y]⟩
  | .sneVxVy x y    => ⟨.sne, [.reg x, .reg y]⟩
  | .ldINnn nnn     => ⟨.ld, [.indexReg, .address nnn]⟩
  | .jpV0Nnn nnn    => ⟨.jp, [.reg 0, .address nnn]⟩
  | .rndVxNn x nn   => ⟨.rnd, [.reg x, .byte nn]⟩
  | .drwVxVyN x y n => ⟨.drw, [.reg x, .reg y, .nibble n]⟩
  | .skpVx x        => ⟨.skp, [.reg x]⟩
  | .sknpVx x       => ⟨.sknp, [.reg x]⟩
  | .ldVxDt x       => ⟨.ld, [.reg x, .delayTimer]⟩
  | .ldVxK x        => ⟨.ld, [.reg x, .key]⟩
  | .ldDtVx x       => ⟨.ld, [.delayTimer, .reg x]⟩
  | .ldStVx x       => ⟨.ld, [.soundTimer, .reg x]⟩
  | .addIVx x       => ⟨.add, [.indexReg, .reg x]⟩
  | .ldFVx x        => ⟨.ld, [.font, .reg x]⟩
  | .ldBVx x        => ⟨.ld, [.decimal, .reg x]⟩
  | .ldMemVx x      => ⟨.ld, [.atIndex, .reg x]⟩
  | .ldVxMem x      => ⟨.ld, [.reg x, .atIndex]⟩
  | .unknownInstruction op => ⟨.db, [.byte (highByte op), .byte (lowByte op)]⟩

/-- The instruction a line names, by its mnemonic and the kinds of its operands (R79); `none` for a line that names none,
and for data. -/
def parseLine : AsmLine → Option Instr
  | ⟨.cls, []⟩                                => some .cls
  | ⟨.ret, []⟩                                => some .ret
  | ⟨.jp, [.address nnn]⟩                     => some (.jpNnn nnn)
  | ⟨.call, [.address nnn]⟩                   => some (.callNnn nnn)
  | ⟨.se, [.reg x, .byte nn]⟩                 => some (.seVxNn x nn)
  | ⟨.sne, [.reg x, .byte nn]⟩                => some (.sneVxNn x nn)
  | ⟨.se, [.reg x, .reg y]⟩                   => some (.seVxVy x y)
  | ⟨.ld, [.reg x, .byte nn]⟩                 => some (.ldVxNn x nn)
  | ⟨.add, [.reg x, .byte nn]⟩                => some (.addVxNn x nn)
  | ⟨.ld, [.reg x, .reg y]⟩                   => some (.ldVxVy x y)
  | ⟨.or, [.reg x, .reg y]⟩                   => some (.orVxVy x y)
  | ⟨.and, [.reg x, .reg y]⟩                  => some (.andVxVy x y)
  | ⟨.xor, [.reg x, .reg y]⟩                  => some (.xorVxVy x y)
  | ⟨.add, [.reg x, .reg y]⟩                  => some (.addVxVy x y)
  | ⟨.sub, [.reg x, .reg y]⟩                  => some (.subVxVy x y)
  | ⟨.shr, [.reg x]⟩                          => some (.shrVx x 0)
  | ⟨.shr, [.reg x, .reg y]⟩                  => some (.shrVx x y)
  | ⟨.subn, [.reg x, .reg y]⟩                 => some (.subnVxVy x y)
  | ⟨.shl, [.reg x]⟩                          => some (.shlVx x 0)
  | ⟨.shl, [.reg x, .reg y]⟩                  => some (.shlVx x y)
  | ⟨.sne, [.reg x, .reg y]⟩                  => some (.sneVxVy x y)
  | ⟨.ld, [.indexReg, .address nnn]⟩          => some (.ldINnn nnn)
  | ⟨.jp, [.reg x, .address nnn]⟩             => if x = 0 then some (.jpV0Nnn nnn) else none
  | ⟨.rnd, [.reg x, .byte nn]⟩                => some (.rndVxNn x nn)
  | ⟨.drw, [.reg x, .reg y, .nibble n]⟩       => some (.drwVxVyN x y n)
  | ⟨.skp, [.reg x]⟩                          => some (.skpVx x)
  | ⟨.sknp, [.reg x]⟩                         => some (.sknpVx x)
  | ⟨.ld, [.reg x, .delayTimer]⟩              => some (.ldVxDt x)
  | ⟨.ld, [.reg x, .key]⟩                     => some (.ldVxK x)
  | ⟨.ld, [.delayTimer, .reg x]⟩              => some (.ldDtVx x)
  | ⟨.ld, [.soundTimer, .reg x]⟩              => some (.ldStVx x)
  | ⟨.add, [.indexReg, .reg x]⟩               => some (.addIVx x)
  | ⟨.ld, [.font, .reg x]⟩                    => some (.ldFVx x)
  | ⟨.ld, [.decimal, .reg x]⟩                 => some (.ldBVx x)
  | ⟨.ld, [.atIndex, .reg x]⟩                 => some (.ldMemVx x)
  | ⟨.ld, [.reg x, .atIndex]⟩                 => some (.ldVxMem x)
  | _                                         => none

/-- The data bytes of a `DB` line (R80). -/
def dataBytes : List AsmOperand → Option (List Byte)
  | []             => some []
  | .byte b :: ops => (dataBytes ops).map (b :: ·)
  | _ :: _         => none

/-- The bytes a line assembles to: the canonical word of its instruction, high byte first, or its data (R80). -/
def assembleLine (l : AsmLine) : Option (List Byte) :=
  match l.mnemonic with
  | .db => dataBytes l.operands
  | _   => (parseLine l).map encodeBytes

end Sys2Proof.Machine
end

