-- ==== Sys2Proof/Machine/Observe.lean ====
section
/-! DEFINITION. Observe (60_exceptions.md R207, 70_reset_and_hazards.md R227): the elements of the state the host can read,
which are all of 10_state.md R20 to R34, and the value of each. -/

namespace Sys2Proof.Machine

/-- An element of the architectural state (10_state.md R20 to R34). -/
inductive Element where
  | v (x : Reg)
  | i
  | pc
  | sp
  | stack (k : Fin 16)
  | dt
  | st
  | key (k : Fin 16)
  | pixel (px : Fin 64) (py : Fin 32)
  | draw
  | wait
  | opcode
  | running
  | err
  | mem (a : Fin 4096)
  deriving DecidableEq, Repr

/-- The number of an error code (60_exceptions.md section 2, 92_eei_decisions.md D3, log 13). -/
def errNumber (codes : ErrNumbers) : ErrorCode → Nat
  | .none  => codes.none
  | .unk   => codes.unk
  | .sov   => codes.sov
  | .sun   => codes.sun
  | .norom => codes.norom
  | .aob   => codes.aob

/-- The value of an element, a number. -/
def observe : Element → State → Nat
  | .v x, s         => (s.reg x).toNat
  | .i, s           => s.i.toNat
  | .pc, s          => s.pc.toNat
  | .sp, s          => s.sp.val
  | .stack k, s     => s.stack[k].toNat
  | .dt, s          => s.dt.toNat
  | .st, s          => s.st.toNat
  | .key k, s       => (s.keys.getLsbD k.val).toNat
  | .pixel px py, s => (Frame.pixel s.fb px.val py.val).toNat
  | .draw, s        => s.draw.toNat
  | .wait, s        => s.wait.toNat
  | .opcode, s      => s.opcode.toNat
  | .running, s     => s.running.toNat
  | .err, s         => errNumber config.errCode s.err
  | .mem a, s       => (s.mem.read a.val).toNat

/-- The pixel at element `k` of the flat frame-buffer array, `py * 64 + px` (10_state.md R28, D18). -/
def flatPixel (k : Fin 2048) (s : State) : Bool := Frame.pixel s.fb (k.val % fbWidth) (k.val / fbWidth)

end Sys2Proof.Machine
end

