-- ==== Sys2Proof/Machine/HostOps.lean ====
section
/-! DEFINITION. The seven host operations (00_scope.md R7, 70_reset_and_hazards.md R227) and runs of them. A run of the
machine is a list of host operations, each applied to the whole state (R7, R8; log 1). -/

namespace Sys2Proof.Machine

/-- Init (70_reset_and_hazards.md R221). The draw counter, which is the model's own, goes on, so that a program loaded anew
draws new bytes (log 3). -/
def initialise (s : State) : State := { State.reset with rndDraws := s.rndDraws }

/-- Load accepts 1 to 3584 bytes (R222, conflict C2). -/
def loadAccepted (bytes : List Byte) : Bool := decide (1 ≤ bytes.length ∧ bytes.length ≤ maxRom)

/-- Load (R223, R224): Init, the bytes verbatim from 0x200, then running; a rejected Load changes nothing. -/
def load (bytes : List Byte) (s : State) : State :=
  if loadAccepted bytes then
    { initialise s with mem := (initialise s).mem.writeBytes progBase bytes, running := true, err := .none }
  else s

/-- A timer's decrement, floored at 0 (60_exceptions.md R203). -/
def countDown (b : Byte) : Byte := if b = 0 then 0 else b - 1

/-- Tick (60_exceptions.md R203), in every state (R199). -/
def tick (s : State) : State := (s.setDt (countDown s.dt)).setSt (countDown s.st)

/-- The keys that can end a wait: those newly down, or, under `KEYWAIT_TRIGGER = level`, those down (44_keys_timers.md R157
(a), D21). -/
def resolvingKeys : KeywaitTrigger → Word → Word → Word
  | .edge, mask, keys => mask &&& ~~~keys
  | .level, mask, _   => mask

/-- The first of the listed keys whose bit is set. -/
def firstKeyOf : List Reg → Word → Option Reg
  | [], _      => none
  | k :: ks, w => if w.getLsbD k.val then some k else firstKeyOf ks w

/-- The lowest key whose bit is set (R157 (c)). -/
def lowestKey (w : Word) : Option Reg := firstKeyOf [0, 1, 2, 3, 4, 5, 6, 7, 8, 9, 10, 11, 12, 13, 14, 15] w

/-- A pending wait resolved by one of the keys `w`: the lowest goes to the register OPCODE[11:8] names (R157, 10_state.md
R31). -/
def resolveWait (w : Word) (s : State) : State :=
  match s.wait, lowestKey w with
  | true, some k => (s.writeReg (fieldX s.opcode) (BitVec.ofNat 8 k.val)).setWait false
  | _, _         => s

/-- KeyUpdate under either value of `KEYWAIT_TRIGGER` (R157). -/
def keyUpdateWith (trigger : KeywaitTrigger) (mask : Word) (s : State) : State :=
  (resolveWait (resolvingKeys trigger mask s.keys) s).setKeys mask

/-- KeyUpdate (R157). -/
def keyUpdate (mask : Word) (s : State) : State := keyUpdateWith config.keywaitTrigger mask s

/-- AckFrame (43_display.md R145). -/
def ackFrame (s : State) : State := s.clearDraw

/-- A host operation with its inputs (R227). -/
inductive HostOp where
  | init
  | load (bytes : List Byte)
  | step
  | tick
  | keyUpdate (mask : Word)
  | ackFrame
  | observe (e : Element)
  deriving DecidableEq, Repr

/-- What a host operation does to the state; all are allowed in every state (R227). -/
def HostOp.apply : HostOp → State → Result
  | .init, s           => .next (initialise s)
  | .load bytes, s     => .next (Machine.load bytes s)
  | .step, s           => Machine.step s
  | .tick, s           => .next (Machine.tick s)
  | .keyUpdate mask, s => .next (Machine.keyUpdate mask s)
  | .ackFrame, s       => .next (Machine.ackFrame s)
  | .observe _, s      => .next s

/-- What a host operation answers to the host (R227): Load whether it was accepted, Observe a value, the others nothing
(Step has no result, D34). -/
inductive Reply where
  | silent
  | accepted
  | rejected
  | value (n : Nat)
  deriving DecidableEq, Repr

/-- The answer of a host operation issued in state `s`. -/
def HostOp.reply : HostOp → State → Reply
  | .load bytes, _ => if loadAccepted bytes then .accepted else .rejected
  | .observe e, s  => .value (Machine.observe e s)
  | .init, _ | .step, _ | .tick, _ | .keyUpdate _, _ | .ackFrame, _ => .silent

/-- A run: host operations one after another (R7, R228). -/
def runHostOps : List HostOp → State → Result
  | [], s        => .next s
  | op :: ops, s =>
    match op.apply s with
    | .next t    => runHostOps ops t
    | .fault r   => .fault r
    | .refused r => .refused r

/-- The execute phases of a list of instructions one after another, for statements about sequences (41_control_flow.md
R108). -/
def runInstrs : List Instr → State → Result
  | [], s      => .next s
  | i :: is, s =>
    match exec i s with
    | .next t    => runInstrs is t
    | .fault r   => .fault r
    | .refused r => .refused r

end Sys2Proof.Machine
end

