-- ==== Sys2Proof/Safety.lean ====
section
/-! DEFINITION. The terms claims are stated in: what an operation leaves unchanged, the invariant of the machine
(10_state.md R38), and the shapes "completes" and "halts". -/

namespace Sys2Proof.Machine

/-- Every element of the architectural state outside `written` reads in `t` as in `s`: registers, PC, the stack, every pixel
and every byte of memory. -/
def Unchanged (written : Element → Prop) (s t : State) : Prop :=
  ∀ e, ¬ written e → observe e t = observe e s

/-- The same, and no random byte was drawn. -/
def Frames (written : Element → Prop) (s t : State) : Prop :=
  Unchanged written s t ∧ t.rndDraws = s.rndDraws

/-- The element is one of the list. -/
def oneOf (l : List Element) (e : Element) : Prop := e ∈ l

/-- `exec i s` answers a next state that meets `P` (completion and result in one). -/
def Completes (i : Instr) (s : State) (P : State → Prop) : Prop := ∃ t, exec i s = .next t ∧ P t

/-- `exec i s` halts the machine with `code`: ERR and RUNNING are written and nothing else (60_exceptions.md R195,
40_step_cycle.md R97). -/
def Halts (i : Instr) (s : State) (code : FatalCode) : Prop :=
  Completes i s fun t =>
    t.err = code.toError ∧ t.running = false ∧ Frames (oneOf [.err, .running]) s t

/-- The invariant of 10_state.md R38 (a is SP's type), with the bound on PC of R23, the meaning of OPCODE during a wait
(R31) and the canonical form of memory (log 20). -/
structure Inv (s : State) : Prop where
  running_iff_no_error : s.running = true ↔ s.err = .none
  waiting_runs         : s.wait = true → s.running = true
  waiting_opcode       : s.wait = true → decodeWord s.opcode = .ldVxK (fieldX s.opcode)
  live_entries_fetched : ∀ k : Fin 16, k.val < s.sp.val → s.stack[k].toNat ≤ 0xFFE
  pc_bounded           : s.pc.toNat ≤ 0x1002
  memory_canonical     : s.mem.wf

/-- A safe state: the machine runs a program and no fatal condition has been raised (60_exceptions.md R209). -/
def Safe (s : State) : Prop := Inv s ∧ s.running = true

/-- The sprite drawn by DRW covers pixel `(px, py)`, under clipping: the pixel lies in the sprite's rectangle, placed at the
unreduced coordinates, and the sprite bit there is set (43_display.md R141, R142). -/
def spriteCovers (x y : Reg) (n : Nibble) (s : State) (px py : Nat) : Prop :=
  ∃ r c : Nat, r < n.toNat ∧ c < 8 ∧ px = (s.reg x).toNat + c ∧ py = (s.reg y).toNat + r ∧
    (s.mem.read (s.i.toNat + r)).getLsbD (7 - c) = true

/-- The same under `SPRITE_WRAP = true`: the column is reduced modulo 64 and the row modulo 32, so nothing is clipped
(43_display.md R144). -/
def spriteFoldsOnto (x y : Reg) (n : Nibble) (s : State) (px py : Nat) : Prop :=
  ∃ r c : Nat, r < n.toNat ∧ c < 8 ∧ px = ((s.reg x).toNat + c) % 64 ∧ py = ((s.reg y).toNat + r) % 32 ∧
    (s.mem.read (s.i.toNat + r)).getLsbD (7 - c) = true

/-- The rows "write" of 10_state.md's table under R21: whether `V[k]` is a register the instruction writes, as its
destination or as the flag. -/
def mayWriteReg (k : Reg) : Instr → Bool
  | .ldVxNn x _ | .addVxNn x _ | .ldVxVy x _ | .orVxVy x _ | .andVxVy x _ | .xorVxVy x _ | .rndVxNn x _ | .ldVxDt x => k == x
  | .addVxVy x _ | .subVxVy x _ | .shrVx x _ | .subnVxVy x _ | .shlVx x _ => k == x || k == flagReg
  | .drwVxVyN _ _ _ | .addIVx _ => k == flagReg
  | .ldVxMem x => decide (k.val ≤ x.val)
  | .cls | .ret | .jpNnn _ | .callNnn _ | .seVxNn _ _ | .sneVxNn _ _ | .seVxVy _ _ | .sneVxVy _ _ | .ldINnn _ | .jpV0Nnn _
  | .skpVx _ | .sknpVx _ | .ldVxK _ | .ldDtVx _ | .ldStVx _ | .ldFVx _ | .ldBVx _ | .ldMemVx _ | .unknownInstruction _ => false

/-- The skips (10_state.md R23, second row of its table). -/
def isSkip (i : Instr) : Prop :=
  ∃ x y nn, i ∈ [Instr.seVxNn x nn, .sneVxNn x nn, .seVxVy x y, .sneVxVy x y, .skpVx x, .sknpVx x]

/-- The instructions that set PC to a target (10_state.md R23, its rows JP, CALL, JP V0 and RET). -/
def redirects (i : Instr) : Prop := i = .ret ∨ ∃ nnn, i ∈ [Instr.jpNnn nnn, .callNnn nnn, .jpV0Nnn nnn]

/-- None of the operations is Init or an accepted Load, so none of them starts a program anew. -/
def noRestart (ops : List HostOp) : Prop :=
  ∀ op ∈ ops, op ≠ .init ∧ ∀ bytes, op = .load bytes → loadAccepted bytes = false

/-- None of the operations is a Load, an Init or a KeyUpdate: the ones a host may issue during a wait without ending it
(44_keys_timers.md R158). -/
def passive (ops : List HostOp) : Prop :=
  ∀ op ∈ ops, op = .step ∨ op = .tick ∨ op = .ackFrame ∨ ∃ e, op = .observe e

/-- The element is a byte of memory at `start` to `start + len - 1`. -/
def storedTo (start len : Nat) (e : Element) : Prop :=
  ∃ a : Fin 4096, e = .mem a ∧ start ≤ a.val ∧ a.val < start + len

/-- The element is a pixel of the frame buffer. -/
def isPixel (e : Element) : Prop := ∃ px py, e = .pixel px py

/-- The element is a key flag. -/
def isKey (e : Element) : Prop := ∃ k, e = .key k

/-- `i` completes with `value` in `V[x]`, PC advanced by 2 and nothing else changed. -/
def WritesRegister (i : Instr) (s : State) (x : Reg) (value : Nat) : Prop :=
  Completes i s fun t => (t.reg x).toNat = value ∧ t.pc = s.pc + 2 ∧ Frames (oneOf [.v x, .pc]) s t

/-- `i` completes with `flag` in VF, `value` in `V[x]` unless `V[x]` is VF, PC advanced by 2 and nothing else changed. -/
def WritesRegisterAndFlag (i : Instr) (s : State) (x : Reg) (value flag : Nat) : Prop :=
  Completes i s fun t =>
    (t.reg flagReg).toNat = flag ∧ (x ≠ flagReg → (t.reg x).toNat = value) ∧ t.pc = s.pc + 2 ∧
      Frames (oneOf [.v x, .v flagReg, .pc]) s t

/-- `i` completes with PC advanced by 4 when `cond` holds and by 2 when it does not, and nothing else changed. -/
def SkipsWhen (i : Instr) (s : State) (cond : Prop) : Prop :=
  Completes i s fun t =>
    (cond → t.pc = s.pc + 4) ∧ (¬ cond → t.pc = s.pc + 2) ∧ Frames (oneOf [.pc]) s t

/-- The value of every element after Init (10_state.md R39, column "after `Init`"; 70_reset_and_hazards.md R221). -/
def initValue : Element → Nat
  | .pc => 0x200
  | .err => errNumber config.errCode .norom
  | .mem a => (config.font.getD a.val 0).toNat
  | .v _ | .i | .sp | .stack _ | .dt | .st | .key _ | .pixel _ _ | .draw | .wait | .opcode | .running => 0

/-- The value of every element after an accepted Load (10_state.md R39, last column; 70_reset_and_hazards.md R223). -/
def loadValue (bytes : List Byte) : Element → Nat
  | .running => 1
  | .err => errNumber config.errCode .none
  | .mem a =>
    if progBase ≤ a.val ∧ a.val < progBase + bytes.length then (bytes.getD (a.val - progBase) 0).toNat
    else initValue (.mem a)
  | e => initValue e

end Sys2Proof.Machine
end

