-- ==== Sys2Proof/Certificates/Slice0/Obligations.lean ====
section
/-! DEFINITION. The statements for the provers. Each docstring names the rules of spec/ it comes from, and, where a clause
rests on one of the spec's own decisions (D1 to D34 of 92_eei_decisions.md), on general knowledge by the spec's own mark, or
on a choice of the model, the decision and the log entry. -/

open Sys2Proof Sys2Proof.Machine

/-! ### Encoding -/

/-- 30_encoding.md R75: words written out from the patterns of the opcode map, one or more per family, with two that differ
from a canonical word in don't-care bits (R74, D4, log 7) and two that are no instruction (R76). The numeric patterns are
general knowledge by the spec's own mark (G1, log 6). -/
def Obligations.WordsDecodeAsTheirPatterns : Prop :=
  decode [0x00, 0xE0] = .ok (.cls, []) ∧ decode [0x00, 0xEE] = .ok (.ret, []) ∧
  decode [0x12, 0x34] = .ok (.jpNnn 0x234, []) ∧ decode [0xBF, 0x80] = .ok (.jpV0Nnn 0xF80, []) ∧
  decode [0x33, 0x2A] = .ok (.seVxNn 3 0x2A, []) ∧ decode [0x91, 0x20] = .ok (.sneVxVy 1 2, []) ∧
  decode [0x81, 0x25] = .ok (.subVxVy 1 2, []) ∧ decode [0x81, 0x2E] = .ok (.shlVx 1 2, []) ∧
  decode [0xC3, 0x0F] = .ok (.rndVxNn 3 0x0F, []) ∧ decode [0xD0, 0x15] = .ok (.drwVxVyN 0 1 5, []) ∧
  decode [0xE2, 0xA1] = .ok (.sknpVx 2, []) ∧ decode [0xF3, 0x0A] = .ok (.ldVxK 3, []) ∧
  decode [0xF3, 0x15] = .ok (.ldDtVx 3, []) ∧ decode [0xF2, 0x65] = .ok (.ldVxMem 2, []) ∧
  decode [0x0F, 0xFE] = .ok (.ret, []) ∧ decode [0x51, 0x2F] = .ok (.seVxVy 1 2, []) ∧
  decode [0x01, 0x23] = .ok (.unknownInstruction 0x0123, []) ∧
  decode [0xFF, 0xFF] = .ok (.unknownInstruction 0xFFFF, [])

/-- 30_encoding.md R75, R78, R80: decoding the encoded word of a well-formed instruction gives it back, with every operand at
every value of its field, under both values of `STRICT_DECODE`; in bytes, under the default. Numeric patterns: G1, log 6. -/
def Obligations.DecodeOfEncodeIsTheInstruction : Prop :=
  (∀ (strict : Bool) (i : Instr), i.wellFormedWith strict = true → decodeWordWith strict (encode i) = i) ∧
  (∀ i : Instr, i.wellFormed = true → decode (encodeBytes i) = .ok (i, []))

/-- 30_encoding.md R78: under `STRICT_DECODE = true` no bit of a word is dropped: re-encoding what a word decodes to gives
the word back, for all 65536 words. D4, log 7. -/
def Obligations.StrictDecodingDropsNoBit : Prop :=
  ∀ op : Word, encode (decodeWordWith true op) = op

/-- 30_encoding.md R75: a word is the instruction of a row exactly when `op & mask = match`; so the rows exclude one
another. Numeric values: G1, log 6; the masks: D4, log 7. -/
def Obligations.WordBelongsToRowExactlyByMask : Prop :=
  ∀ (op : Word) (i : Instr) (r : OpcodeRow), opcodeRow i = some r →
    (opcodeRow (decodeWord op) = some r ↔ op &&& r.mask = r.bits)

/-- 30_encoding.md R76: the unknown instructions are exactly the words of the five illegal patterns, and every decoded
instruction is well-formed. Numeric patterns: G1, log 6. -/
def Obligations.UnknownExactlyTheIllegalPatterns : Prop :=
  ∀ op : Word, (illegalWord op = true ↔ decodeWord op = .unknownInstruction op) ∧ (decodeWord op).wellFormed = true

/-- 30_encoding.md R79, R80: assembling the line of any instruction gives its canonical bytes, and data for a word that is
none; the line of an instruction names it and no other (D29, log 24). -/
def Obligations.AssemblingTheDisassemblyGivesTheBytes : Prop :=
  ∀ i : Instr, assembleLine (disassemble i) = some (encodeBytes i) ∧
    ((∀ op, i ≠ .unknownInstruction op) → parseLine (disassemble i) = some i)

/-! ### The Step operation -/

/-- 40_step_cycle.md R91 to R95: when the two bytes at PC decode to `i`, Step is `exec i` in the same state with the word
latched in OPCODE. -/
def Obligations.StepRunsTheDecodedInstruction : Prop :=
  ∀ (s : State) (hi lo : Byte) (i : Instr), s.running = true → s.wait = false → s.pc.toNat ≤ 0xFFE →
    s.mem.read s.pc.toNat = hi → s.mem.read (s.pc.toNat + 1) = lo → decode [hi, lo] = .ok (i, []) →
    step s = exec i (s.latchOpcode (joinBytes hi lo))

/-- The model's own convention (log 2): a placed word is the very next instruction, in every state, and placing it changes
no element but the two bytes, RUNNING, ERR, WAIT and, where no word fits at PC, PC. -/
def Obligations.PlacedWordRunsNext : Prop :=
  ∀ (s : State) (w : Nat), w < 65536 →
    step (s.withFetchWord 16 w) = exec (decodeWord (BitVec.ofNat 16 w)) ((s.withFetchWord 16 w).latchOpcode (BitVec.ofNat 16 w)) ∧
    (s.pc.toNat ≤ 0xFFE → (s.withFetchWord 16 w).pc = s.pc) ∧
    Frames (fun e => storedTo (fetchAddress s).toNat 2 e ∨ e ∈ [Element.pc, .running, .err, .wait]) s (s.withFetchWord 16 w)

/-- 40_step_cycle.md R90: a Step on a machine that is not running, or is waiting for a key, changes nothing. -/
def Obligations.GatedStepChangesNothing : Prop :=
  ∀ s : State, s.running = false ∨ s.wait = true → step s = .next s

/-- 40_step_cycle.md R92: a fetch outside memory halts with AOB and changes nothing else, not even OPCODE (D9, log 14). -/
def Obligations.FetchOutsideMemoryHalts : Prop :=
  ∀ s : State, s.running = true → s.wait = false → 0xFFE < s.pc.toNat →
    ∃ t, step s = .next t ∧ t.err = .aob ∧ t.running = false ∧ Frames (oneOf [.err, .running]) s t

/-- 40_step_cycle.md R93: a Step that fetches leaves the fetched word in OPCODE, whatever the instruction does (D11, log
14). -/
def Obligations.FetchedWordStaysInOpcode : Prop :=
  ∀ s t : State, s.running = true → s.wait = false → s.pc.toNat ≤ 0xFFE → step s = .next t →
    t.opcode = joinBytes (s.mem.read s.pc.toNat) (s.mem.read (s.pc.toNat + 1))

/-- 60_exceptions.md R191, 40_step_cycle.md R94: the unknown instruction halts the machine with UNK, PC not advanced; a Step
that fetches an illegal word does so and leaves the word in OPCODE (D11, log 14). Its completion is this entry. -/
def Obligations.UnknownInstructionHalts : Prop :=
  (∀ (op : Word) (s : State), Halts (.unknownInstruction op) s .unk) ∧
  (∀ s : State, s.running = true → s.wait = false → s.pc.toNat ≤ 0xFFE →
    illegalWord (joinBytes (s.mem.read s.pc.toNat) (s.mem.read (s.pc.toNat + 1))) = true →
    ∃ t, step s = .next t ∧ t.err = .unk ∧ t.running = false ∧ t.pc = s.pc ∧
      t.opcode = joinBytes (s.mem.read s.pc.toNat) (s.mem.read (s.pc.toNat + 1)) ∧
      Frames (oneOf [.err, .running, .opcode]) s t)

/-- 70_reset_and_hazards.md R227, 40_step_cycle.md R98: a Step is allowed in every state and always answers a state, and so
does the execute phase of every instruction. -/
def Obligations.EveryStepAnswersAState : Prop :=
  (∀ s : State, ∃ t, step s = .next t) ∧ (∀ (i : Instr) (s : State), ∃ t, exec i s = .next t)

/-! ### Register and ALU instructions -/

/-- 42_alu.md R120 to R125: LD Vx,nn, ADD Vx,nn, LD Vx,Vy, OR, AND, XOR write `V[x]` and nothing else, VF not unless it is
`V[x]` (D13, log 17). -/
def Obligations.RegisterLoadsWriteOnlyTheirDestination : Prop :=
  ∀ (s : State) (x y : Reg) (nn : Byte),
    WritesRegister (.ldVxNn x nn) s x nn.toNat ∧
    WritesRegister (.addVxNn x nn) s x (((s.reg x).toNat + nn.toNat) % 256) ∧
    WritesRegister (.ldVxVy x y) s x (s.reg y).toNat ∧
    WritesRegister (.orVxVy x y) s x ((s.reg x).toNat ||| (s.reg y).toNat) ∧
    WritesRegister (.andVxVy x y) s x ((s.reg x).toNat &&& (s.reg y).toNat) ∧
    WritesRegister (.xorVxVy x y) s x ((s.reg x).toNat ^^^ (s.reg y).toNat)

/-- 42_alu.md R126, R127, R130, R133: ADD, SUB and SUBN, with the flag last, so that it survives in VF (D6, log 15). -/
def Obligations.SumsAndDifferencesSetTheFlag : Prop :=
  ∀ (s : State) (x y : Reg),
    WritesRegisterAndFlag (.addVxVy x y) s x (((s.reg x).toNat + (s.reg y).toNat) % 256)
      (if 255 < (s.reg x).toNat + (s.reg y).toNat then 1 else 0) ∧
    WritesRegisterAndFlag (.subVxVy x y) s x (((s.reg x).toNat + 256 - (s.reg y).toNat) % 256)
      (if (s.reg y).toNat ≤ (s.reg x).toNat then 1 else 0) ∧
    WritesRegisterAndFlag (.subnVxVy x y) s x (((s.reg y).toNat + 256 - (s.reg x).toNat) % 256)
      (if (s.reg x).toNat ≤ (s.reg y).toNat then 1 else 0)

/-- 42_alu.md R128, R129, R131, R133: SHR and SHL shift `V[x]` in place, whatever `y` is (D14, log 9; D6, log 15). -/
def Obligations.ShiftsWorkInPlace : Prop :=
  ∀ (s : State) (x y : Reg),
    WritesRegisterAndFlag (.shrVx x y) s x ((s.reg x).toNat / 2) ((s.reg x).toNat % 2) ∧
    WritesRegisterAndFlag (.shlVx x y) s x ((s.reg x).toNat * 2 % 256) ((s.reg x).toNat / 128)

/-- 42_alu.md R132: RND writes a random byte under its mask. The byte is a free value (D25, log 3): the statement holds
whatever it is. One draw is counted. -/
def Obligations.RandomByteStaysUnderItsMask : Prop :=
  ∀ (s : State) (x : Reg) (nn : Byte),
    Completes (.rndVxNn x nn) s fun t =>
      t.reg x = Config.randomByte s.rndDraws &&& nn ∧
      (∀ k, (t.reg x).getLsbD k = true → nn.getLsbD k = true) ∧
      t.rndDraws = s.rndDraws + 1 ∧ t.pc = s.pc + 2 ∧ Unchanged (oneOf [.v x, .pc]) s t

/-! ### Control flow -/

/-- 41_control_flow.md R100, R101: the two jumps change PC alone; JP V0,nnn halts with AOB when `nnn + V[0]` reaches 4096 (the
base V0: D12, log 8), and JP nnn completes always. -/
def Obligations.JumpsReachTheirTarget : Prop :=
  ∀ (s : State) (nnn : Addr12),
    Completes (.jpNnn nnn) s (fun t => t.pc.toNat = nnn.toNat ∧ Frames (oneOf [.pc]) s t) ∧
    (nnn.toNat + (s.reg 0).toNat < 4096 →
      Completes (.jpV0Nnn nnn) s fun t => t.pc.toNat = nnn.toNat + (s.reg 0).toNat ∧ Frames (oneOf [.pc]) s t) ∧
    (4096 ≤ nnn.toNat + (s.reg 0).toNat → Halts (.jpV0Nnn nnn) s .aob)

/-- 41_control_flow.md R102: CALL pushes its own address (D7, log 16) and jumps; with a full stack it halts with SOV. -/
def Obligations.CallPushesItsOwnAddress : Prop :=
  ∀ (s : State) (nnn : Addr12),
    (∀ k : Fin 16, s.sp.val = k.val →
      Completes (.callNnn nnn) s fun t =>
        t.stack[k] = s.pc ∧ t.sp.val = k.val + 1 ∧ t.pc.toNat = nnn.toNat ∧ Frames (oneOf [.stack k, .sp, .pc]) s t) ∧
    (s.sp.val = 16 → Halts (.callNnn nnn) s .sov)

/-- 41_control_flow.md R103: RET continues two past the popped address, and the entry stays (D7, D33, log 16); with an empty
stack it halts with SUN. -/
def Obligations.RetContinuesPastTheCall : Prop :=
  ∀ s : State,
    (∀ k : Fin 16, s.sp.val = k.val + 1 →
      Completes .ret s fun t =>
        t.sp.val = k.val ∧ t.pc.toNat = (s.stack[k].toNat + 2) % 65536 ∧ Frames (oneOf [.sp, .pc]) s t) ∧
    (s.sp.val = 0 → Halts .ret s .sun)

/-- 41_control_flow.md R104 to R107: the four register skips. -/
def Obligations.RegisterSkipsCompare : Prop :=
  ∀ (s : State) (x y : Reg) (nn : Byte),
    SkipsWhen (.seVxNn x nn) s (s.reg x = nn) ∧ SkipsWhen (.sneVxNn x nn) s (s.reg x ≠ nn) ∧
    SkipsWhen (.seVxVy x y) s (s.reg x = s.reg y) ∧ SkipsWhen (.sneVxVy x y) s (s.reg x ≠ s.reg y)

/-- 41_control_flow.md R108: any sequence of 1 to 16 calls that fits on the stack, followed by as many returns, ends two past
the first call with SP where it was; nothing else changes but the entries the calls used. -/
def Obligations.CallsAndReturnsNest : Prop :=
  ∀ (targets : List Addr12) (s : State), targets ≠ [] → s.sp.val + targets.length ≤ 16 →
    ∃ t, runInstrs (targets.map Instr.callNnn ++ List.replicate targets.length Instr.ret) s = .next t ∧
      t.pc = s.pc + 2 ∧ t.sp = s.sp ∧
      Frames (fun e => e = .pc ∨ ∃ k : Fin 16, s.sp.val ≤ k.val ∧ e = .stack k) s t

/-! ### Display -/

/-- 43_display.md R140: CLS unlights every pixel and sets DRAW. -/
def Obligations.ClsBlanksTheScreen : Prop :=
  ∀ s : State, Completes .cls s fun t =>
    (∀ (px : Fin 64) (py : Fin 32), Frame.pixel t.fb px.val py.val = false) ∧ t.draw = true ∧ t.pc = s.pc + 2 ∧
      Frames (fun e => isPixel e ∨ e ∈ [Element.draw, .pc]) s t

/-- 43_display.md R141, R142: DRW inverts exactly the pixels on the screen that a set sprite bit covers, VF says whether one
of them was lit, DRAW is set, I stays. Coordinates unreduced and clipped: D17; bit order: D18; height 0: D19 (log 10); range
check: D10 (log 14); VF as a coordinate: D6 (log 15). -/
def Obligations.DrwInvertsExactlyTheCoveredPixels : Prop :=
  ∀ (s : State) (x y : Reg) (n : Nibble),
    (n.toNat = 0 ∨ indexAddress s + n.toNat - 1 < 4096 →
      Completes (.drwVxVyN x y n) s fun t =>
        (∀ (px : Fin 64) (py : Fin 32),
          (spriteCovers x y n s px.val py.val → Frame.pixel t.fb px.val py.val = !Frame.pixel s.fb px.val py.val) ∧
          (¬ spriteCovers x y n s px.val py.val → Frame.pixel t.fb px.val py.val = Frame.pixel s.fb px.val py.val)) ∧
        ((∃ (px : Fin 64) (py : Fin 32), spriteCovers x y n s px.val py.val ∧ Frame.pixel s.fb px.val py.val = true) →
          t.reg flagReg = 1) ∧
        ((¬ ∃ (px : Fin 64) (py : Fin 32), spriteCovers x y n s px.val py.val ∧ Frame.pixel s.fb px.val py.val = true) →
          t.reg flagReg = 0) ∧
        t.draw = true ∧ t.pc = s.pc + 2 ∧
        Frames (fun e => isPixel e ∨ e ∈ [Element.v flagReg, .draw, .pc]) s t) ∧
    (n.toNat ≠ 0 → 4096 ≤ indexAddress s + n.toNat - 1 → Halts (.drwVxVyN x y n) s .aob)

/-- 43_display.md R143: the collision law. Drawing the same sprite twice at the same place restores every pixel; if the
covered pixels were unlit and one is on the screen, the second draw reports a collision, and if none is on the screen,
neither draw does. That the coordinates are the same is a premise, since a draw that uses VF as a coordinate may move it.
Unreduced coordinates and clipping: D17; height 0: D19 (log 10). -/
def Obligations.DrawingTwiceCancels : Prop :=
  ∀ (s t u : State) (x y : Reg) (n : Nibble), s.running = true →
    exec (.drwVxVyN x y n) s = .next t → t.running = true → t.reg x = s.reg x → t.reg y = s.reg y →
    exec (.drwVxVyN x y n) t = .next u →
    (∀ (px : Fin 64) (py : Fin 32), Frame.pixel u.fb px.val py.val = Frame.pixel s.fb px.val py.val) ∧
    ((∃ (px : Fin 64) (py : Fin 32), spriteCovers x y n s px.val py.val) →
      (∀ (px : Fin 64) (py : Fin 32), spriteCovers x y n s px.val py.val → Frame.pixel s.fb px.val py.val = false) →
      u.reg flagReg = 1) ∧
    ((¬ ∃ (px : Fin 64) (py : Fin 32), spriteCovers x y n s px.val py.val) → t.reg flagReg = 0 ∧ u.reg flagReg = 0)

/-- 43_display.md R144: under `SPRITE_WRAP = true` each pixel coordinate is reduced modulo 64 and 32, and nothing else of R142
changes: exactly the pixels folded onto are inverted, VF says whether one of them was lit, DRAW is set, and the same range
check halts with AOB (the alternative of D17, log 10; range check: D10, log 14; VF as a coordinate: D6, log 15). -/
def Obligations.WrappedSpritesFoldOntoTheScreen : Prop :=
  ∀ (s : State) (x y : Reg) (n : Nibble),
    (n.toNat = 0 ∨ indexAddress s + n.toNat - 1 < 4096 →
      ∃ t, drawSprite true x y n s = .next t ∧
        (∀ (px : Fin 64) (py : Fin 32),
          (spriteFoldsOnto x y n s px.val py.val → Frame.pixel t.fb px.val py.val = !Frame.pixel s.fb px.val py.val) ∧
          (¬ spriteFoldsOnto x y n s px.val py.val → Frame.pixel t.fb px.val py.val = Frame.pixel s.fb px.val py.val)) ∧
        ((∃ (px : Fin 64) (py : Fin 32), spriteFoldsOnto x y n s px.val py.val ∧ Frame.pixel s.fb px.val py.val = true) →
          t.reg flagReg = 1) ∧
        ((¬ ∃ (px : Fin 64) (py : Fin 32), spriteFoldsOnto x y n s px.val py.val ∧ Frame.pixel s.fb px.val py.val = true) →
          t.reg flagReg = 0) ∧
        t.draw = true ∧ t.pc = s.pc + 2 ∧ Frames (fun e => isPixel e ∨ e ∈ [Element.v flagReg, .draw, .pc]) s t) ∧
    (n.toNat ≠ 0 → 4096 ≤ indexAddress s + n.toNat - 1 →
      ∃ t, drawSprite true x y n s = .next t ∧ t.err = .aob ∧ t.running = false ∧ Frames (oneOf [.err, .running]) s t)

/-! ### Keys and timers -/

/-- 44_keys_timers.md R150, R151, R155: SKP and SKNP consult the key named by the low four bits of `V[x]` (D20, log 18). -/
def Obligations.KeySkipsConsultTheLowNibble : Prop :=
  ∀ (s : State) (x : Reg),
    SkipsWhen (.skpVx x) s (s.keys.getLsbD ((s.reg x).toNat % 16) = true) ∧
    SkipsWhen (.sknpVx x) s (s.keys.getLsbD ((s.reg x).toNat % 16) = false)

/-- 44_keys_timers.md R152 to R154: the timer accesses. -/
def Obligations.TimerAccessesCopyWholeBytes : Prop :=
  ∀ (s : State) (x : Reg),
    WritesRegister (.ldVxDt x) s x s.dt.toNat ∧
    Completes (.ldDtVx x) s (fun t => t.dt = s.reg x ∧ t.pc = s.pc + 2 ∧ Frames (oneOf [.dt, .pc]) s t) ∧
    Completes (.ldStVx x) s (fun t => t.st = s.reg x ∧ t.pc = s.pc + 2 ∧ Frames (oneOf [.st, .pc]) s t)

/-- 44_keys_timers.md R156: LD Vx,K begins a wait, advances PC (D23, log 11) and writes no register. -/
def Obligations.AwaitKeyOnlyBeginsTheWait : Prop :=
  ∀ (s : State) (x : Reg),
    Completes (.ldVxK x) s fun t => t.wait = true ∧ t.pc = s.pc + 2 ∧ Frames (oneOf [.wait, .pc]) s t

/-! ### The index register and memory -/

/-- 45_index_memory.md R170 to R172: LD I, ADD I (the flag from the unreduced sum, D15) and LD F (no mask, D16; log 18). -/
def Obligations.IndexRegisterInstructions : Prop :=
  ∀ (s : State) (x : Reg) (nnn : Addr12),
    Completes (.ldINnn nnn) s
      (fun t => t.i.toNat = nnn.toNat ∧ t.pc = s.pc + 2 ∧ Frames (oneOf [.i, .pc]) s t) ∧
    Completes (.addIVx x) s
      (fun t => t.i.toNat = (s.i.toNat + (s.reg x).toNat) % 65536 ∧
        (t.reg flagReg).toNat = (if 0xFFF < s.i.toNat + (s.reg x).toNat then 1 else 0) ∧ t.pc = s.pc + 2 ∧
        Frames (oneOf [.i, .v flagReg, .pc]) s t) ∧
    Completes (.ldFVx x) s
      (fun t => t.i.toNat = (s.reg x).toNat * 5 ∧ t.pc = s.pc + 2 ∧ Frames (oneOf [.i, .pc]) s t)

/-- 45_index_memory.md R173, 20_memory.md R54: LD B stores the three decimal digits at I, I + 1, I + 2 and changes no other
byte; out of range it halts with AOB and stores nothing (D10, log 14). -/
def Obligations.LdBStoresTheDecimalDigits : Prop :=
  ∀ (s : State) (x : Reg),
    (indexAddress s + 2 < 4096 →
      Completes (.ldBVx x) s fun t =>
        (t.mem.read (indexAddress s)).toNat = (s.reg x).toNat / 100 ∧
        (t.mem.read (indexAddress s + 1)).toNat = (s.reg x).toNat / 10 % 10 ∧
        (t.mem.read (indexAddress s + 2)).toNat = (s.reg x).toNat % 10 ∧
        t.pc = s.pc + 2 ∧ Frames (fun e => storedTo (indexAddress s) 3 e ∨ e = .pc) s t) ∧
    (4096 ≤ indexAddress s + 2 → Halts (.ldBVx x) s .aob)

/-- 45_index_memory.md R174, 20_memory.md R54: LD [I],Vx stores `V[0]` to `V[x]` from I up, changes no other byte, and
advances I past the block; out of range it halts with AOB and stores nothing (D10, log 14). -/
def Obligations.BlockStoreWritesTheRegisters : Prop :=
  ∀ (s : State) (x : Reg),
    (indexAddress s + x.val < 4096 →
      Completes (.ldMemVx x) s fun t =>
        (∀ k : Reg, k.val ≤ x.val → t.mem.read (indexAddress s + k.val) = s.reg k) ∧
        t.i.toNat = s.i.toNat + x.val + 1 ∧ t.pc = s.pc + 2 ∧
        Frames (fun e => storedTo (indexAddress s) (x.val + 1) e ∨ e ∈ [Element.i, .pc]) s t) ∧
    (4096 ≤ indexAddress s + x.val → Halts (.ldMemVx x) s .aob)

/-- 45_index_memory.md R175, 20_memory.md R54: LD Vx,[I] loads `V[0]` to `V[x]` from I up, leaves the higher registers and all
of memory, and advances I; out of range it halts with AOB (D10, log 14). -/
def Obligations.BlockLoadReadsTheBytes : Prop :=
  ∀ (s : State) (x : Reg),
    (indexAddress s + x.val < 4096 →
      Completes (.ldVxMem x) s fun t =>
        (∀ k : Reg, k.val ≤ x.val → t.reg k = s.mem.read (indexAddress s + k.val)) ∧
        t.i.toNat = s.i.toNat + x.val + 1 ∧ t.pc = s.pc + 2 ∧
        Frames (fun e => (∃ k : Reg, k.val ≤ x.val ∧ e = .v k) ∨ e ∈ [Element.i, .pc]) s t) ∧
    (4096 ≤ indexAddress s + x.val → Halts (.ldVxMem x) s .aob)

/-- 20_memory.md R63: a block store over code is what the next fetch from there reads. -/
def Obligations.StoredCodeIsFetched : Prop :=
  ∀ (s t : State) (x k j : Reg), k.val + 1 = j.val → j.val ≤ x.val → indexAddress s + x.val < 4096 →
    exec (.ldMemVx x) s = .next t →
    fetchWord (t.setPc (s.i + BitVec.ofNat 16 k.val)) = some (joinBytes (s.reg k) (s.reg j))

/-! ### Fatal conditions -/

/-- 60_exceptions.md R195: entering the halted state writes ERR, one of the four fatal codes, and RUNNING, and nothing else:
raising a fatal condition does exactly this, and so does every instruction that ends halted; a Step that ends halted has
besides only latched the word it fetched (40_step_cycle.md R93, R97). That a halting instruction has no partial effect and
that the fetched word stays latched are the spec's decisions D10 and D11 (log 14, DESIGN CHOICE). -/
def Obligations.HaltingWritesOnlyErrAndRunning : Prop :=
  (∀ (c : FatalCode) (s : State), ∃ t, raiseFatal c s = .next t ∧ t.err = c.toError ∧ t.running = false ∧
    Frames (oneOf [.err, .running]) s t) ∧
  (∀ (i : Instr) (s t : State), s.running = true → exec i s = .next t → t.running = false →
    (∃ c : FatalCode, t.err = c.toError) ∧ Frames (oneOf [.err, .running]) s t) ∧
  (∀ s t : State, s.running = true → step s = .next t → t.running = false →
    (∃ c : FatalCode, t.err = c.toError) ∧ Frames (oneOf [.err, .running, .opcode]) s t)

/-- 60_exceptions.md R192: stack-overflow is raised by CALL when SP = 16, nothing is pushed, and nothing else raises it. -/
def Obligations.StackOverflowExactlyByTheFullCall : Prop :=
  ∀ (i : Instr) (s t : State), s.err ≠ .sov → exec i s = .next t →
    (t.err = .sov ↔ (∃ nnn, i = .callNnn nnn) ∧ s.sp.val = 16) ∧
    (t.err = .sov → t.running = false ∧ t.sp = s.sp ∧ t.stack = s.stack)

/-- 60_exceptions.md R193: stack-underflow is raised by RET when SP = 0, and nothing else raises it. -/
def Obligations.StackUnderflowExactlyByTheEmptyReturn : Prop :=
  ∀ (i : Instr) (s t : State), s.err ≠ .sun → exec i s = .next t →
    (t.err = .sun ↔ i = .ret ∧ s.sp.val = 0) ∧ (t.err = .sun → t.running = false)

/-- 60_exceptions.md R194: the cases of address-out-of-bounds in the execute phase, and no others (the fetch case is
FetchOutsideMemoryHalts). D10, log 14; the base of JP V0: D12, log 8. -/
def Obligations.AddressOutOfBoundsExactlyInTheseCases : Prop :=
  ∀ (i : Instr) (s t : State), s.err ≠ .aob → exec i s = .next t →
    (t.err = .aob ↔
      (∃ nnn : Addr12, i = .jpV0Nnn nnn ∧ 4096 ≤ nnn.toNat + (s.reg 0).toNat) ∨
      (∃ x y n, i = .drwVxVyN x y n ∧ 0 < n.toNat ∧ 4096 ≤ s.i.toNat + n.toNat - 1) ∨
      (∃ x, i = .ldBVx x ∧ 4096 ≤ s.i.toNat + 2) ∨
      (∃ x : Reg, i = .ldMemVx x ∧ 4096 ≤ s.i.toNat + x.val) ∨
      (∃ x : Reg, i = .ldVxMem x ∧ 4096 ≤ s.i.toNat + x.val))

/-! ### Host operations -/

/-- 70_reset_and_hazards.md R221: Init gives every element its reset value, from any state, and a Step then does nothing;
FONT's bytes are the parameter's (D26, log 12). That the reset state is the state after Init, and so has these values too, is
decision D1 (70_reset_and_hazards.md R220, 10_state.md R40; log 19, DESIGN CHOICE). -/
def Obligations.InitGivesEveryElementItsResetValue : Prop :=
  ∀ (s : State) (e : Element),
    (∃ t, HostOp.apply .init s = .next t ∧ observe e t = initValue e ∧ step t = .next t) ∧
    observe e State.reset = initValue e

/-- 70_reset_and_hazards.md R222 to R224: Load accepts 1 to 3584 bytes, gives every element the value of R223, and, rejected,
changes nothing. -/
def Obligations.LoadPlacesTheProgramOrChangesNothing : Prop :=
  ∀ (s : State) (bytes : List Byte),
    (1 ≤ bytes.length ∧ bytes.length ≤ 3584 →
      HostOp.reply (.load bytes) s = .accepted ∧
      ∃ t, HostOp.apply (.load bytes) s = .next t ∧ ∀ e, observe e t = loadValue bytes e) ∧
    (bytes.length = 0 ∨ 3584 < bytes.length →
      HostOp.reply (.load bytes) s = .rejected ∧ HostOp.apply (.load bytes) s = .next s)

/-- 60_exceptions.md R203: after `k` Ticks a timer that held `v` holds `max(v - k, 0)`, and nothing else has changed, in every
state (D24, log 19). -/
def Obligations.TicksCountDownToZero : Prop :=
  ∀ (k : Nat) (s : State), ∃ t, runHostOps (List.replicate k .tick) s = .next t ∧
    t.dt.toNat = s.dt.toNat - k ∧ t.st.toNat = s.st.toNat - k ∧ Frames (oneOf [.dt, .st]) s t

/-- 44_keys_timers.md R157: KeyUpdate records the mask; a pending wait ends with the lowest newly pressed key, written to the
register OPCODE[11:8] names, and goes on when there is none. The edge reading, the mask's layout and the register: D21, D22,
D23 (log 11); in every state: D24 (log 19). -/
def Obligations.KeyPressEndsTheWait : Prop :=
  ∀ (s : State) (mask : Word), ∃ t, HostOp.apply (.keyUpdate mask) s = .next t ∧
    (∀ k : Fin 16, t.keys.getLsbD k.val = mask.getLsbD k.val) ∧
    (∀ k : Fin 16, s.wait = true → mask.getLsbD k.val = true → s.keys.getLsbD k.val = false →
      (∀ j : Fin 16, j < k → mask.getLsbD j.val = true → s.keys.getLsbD j.val = true) →
      t.wait = false ∧ (t.reg (fieldX s.opcode)).toNat = k.val ∧
        Frames (fun e => isKey e ∨ e ∈ [Element.wait, .v (fieldX s.opcode)]) s t) ∧
    (s.wait = false ∨ (∀ k : Fin 16, mask.getLsbD k.val = true → s.keys.getLsbD k.val = true) → Frames isKey s t)

/-- 43_display.md R145 and 60_exceptions.md R207: AckFrame clears DRAW alone, in every state (D24, D28, log 19), and Observe
answers the element's value and changes nothing. -/
def Obligations.AckFrameAndObserve : Prop :=
  ∀ (s : State) (e : Element),
    (∃ t, HostOp.apply .ackFrame s = .next t ∧ t.draw = false ∧ Frames (oneOf [.draw]) s t) ∧
    HostOp.apply (.observe e) s = .next s ∧ HostOp.reply (.observe e) s = .value (observe e s)

/-- 44_keys_timers.md R158: during a wait no number of Steps executes anything; only the timers (Tick) and DRAW (AckFrame) can
change until a KeyUpdate, Load or Init. -/
def Obligations.WaitOutlastsStepsAndTicks : Prop :=
  ∀ (ops : List HostOp) (s : State), s.wait = true → passive ops →
    ∃ t, runHostOps ops s = .next t ∧ Frames (oneOf [.dt, .st, .draw]) s t

/-- 60_exceptions.md R198: on a halted machine no instruction has effect; it stays halted with the same ERR under any
operations but Init and an accepted Load, and those two discard the whole program state. -/
def Obligations.HaltIsTerminalUntilRestart : Prop :=
  (∀ s : State, s.running = false → step s = .next s) ∧
  (∀ (ops : List HostOp) (s : State), s.running = false → noRestart ops →
    ∃ t, runHostOps ops s = .next t ∧ t.running = false ∧ t.err = s.err) ∧
  (∀ (s s' : State) (bytes : List Byte) (e : Element), loadAccepted bytes = true →
    observe e (load bytes s) = observe e (load bytes s') ∧ (load bytes s).running = true) ∧
  (∀ (s s' : State) (e : Element), observe e (initialise s) = observe e (initialise s'))

/-- 10_state.md R32: RUNNING is set only by an accepted Load, and cleared by Init and by every fatal condition, and by nothing
else; once it is false, a Step has no effect. -/
def Obligations.RunningIsSetOnlyByLoad : Prop :=
  ∀ (op : HostOp) (s t : State), op.apply s = .next t →
    (s.running = false → t.running = true → ∃ bytes, op = .load bytes ∧ loadAccepted bytes = true) ∧
    (s.running = true → t.running = false → op = .init ∨ (op = .step ∧ ∃ c : FatalCode, t.err = c.toError)) ∧
    (op = .init → t.running = false) ∧
    (op = .step → s.err = .none → t.err ≠ .none → t.running = false) ∧
    (op = .step → s.running = false → t = s) ∧
    (∀ bytes, op = .load bytes → loadAccepted bytes = true → t.running = true)

/-- 44_keys_timers.md R157 (a): under `KEYWAIT_TRIGGER = level` a key that is held ends the wait, where under `edge` it does
not (the two readings of D21, log 11). -/
def Obligations.HeldKeyEndsOnlyALevelWait : Prop :=
  ∀ (s : State) (k : Fin 16), s.wait = true → s.keys = BitVec.twoPow 16 k.val →
    (keyUpdateWith .edge s.keys s).wait = true ∧
    (keyUpdateWith .level s.keys s).wait = false ∧
    ((keyUpdateWith .level s.keys s).reg (fieldX s.opcode)).toNat = k.val

/-- The alternatives of `JUMP_BASE` and `SHIFT_SOURCE` (92_eei_decisions.md D12, D14; logs 8 and 9): the jump adds I under the
same bound, and the shifts take `V[y]`; PC, the flag order (D6, log 15) and the frame are those of the defaults. -/
def Obligations.AlternativeOperandSources : Prop :=
  ∀ (s : State) (x y : Reg) (nnn : Addr12),
    (nnn.toNat + s.i.toNat < 4096 →
      ∃ t, jumpIndexed .indexI nnn s = .next t ∧ t.pc.toNat = nnn.toNat + s.i.toNat ∧ Frames (oneOf [.pc]) s t) ∧
    (4096 ≤ nnn.toNat + s.i.toNat →
      ∃ t, jumpIndexed .indexI nnn s = .next t ∧ t.err = .aob ∧ t.running = false ∧ Frames (oneOf [.err, .running]) s t) ∧
    (∃ t, shiftRight .vy x y s = .next t ∧ (t.reg flagReg).toNat = (s.reg y).toNat % 2 ∧
      (x ≠ flagReg → (t.reg x).toNat = (s.reg y).toNat / 2) ∧ t.pc = s.pc + 2 ∧
      Frames (oneOf [.v x, .v flagReg, .pc]) s t) ∧
    (∃ t, shiftLeft .vy x y s = .next t ∧ (t.reg flagReg).toNat = (s.reg y).toNat / 128 ∧
      (x ≠ flagReg → (t.reg x).toNat = (s.reg y).toNat * 2 % 256) ∧ t.pc = s.pc + 2 ∧
      Frames (oneOf [.v x, .v flagReg, .pc]) s t)

/-! ### The whole machine -/

/-- 10_state.md R38, R39: the invariant holds of the state after Init. -/
def Obligations.InvariantHoldsAfterInit : Prop := Inv State.reset

/-- 10_state.md R38 (with R23, R31 and the canonical form of memory, log 20): every Step keeps the invariant. -/
def Obligations.InvariantKeptByEveryStep : Prop :=
  ∀ s t : State, Inv s → step s = .next t → Inv t

/-- 10_state.md R38: every run of host operations keeps the invariant. -/
def Obligations.InvariantKeptByEveryRun : Prop :=
  ∀ (ops : List HostOp) (s t : State), Inv s → runHostOps ops s = .next t → Inv t

/-- 10_state.md, the table under R21 (V0 to VF), R23 (PC) and R36, column "program writes" (the other elements): which
instructions can change each element, whatever the state. A register is changed only by an instruction that names it as a
destination or writes its flag there; PC goes elsewhere than two on only by a skip, a redirection or a halt, which leaves it;
KEY and OPCODE are changed by none, WAIT and DRAW are only set, RUNNING is only cleared. The last clause is about the model's
own draw counter, which is no element of the spec's state (log 3). VF left alone by 8XY0 to 8XY3: D13 (log 17); no partial
effect of a halt: D10, D11 (log 14). -/
def Obligations.ProgramsWriteOnlyWhatTheirInstructionsMay : Prop :=
  ∀ (i : Instr) (s t : State), exec i s = .next t →
    (∀ k : Reg, t.reg k ≠ s.reg k → mayWriteReg k i = true) ∧
    (t.pc ≠ s.pc + 2 → (isSkip i ∧ t.pc = s.pc + 4) ∨ redirects i ∨ (t.pc = s.pc ∧ t.running = false)) ∧
    t.keys = s.keys ∧ t.opcode = s.opcode ∧
    (t.dt ≠ s.dt → ∃ x, i = .ldDtVx x) ∧ (t.st ≠ s.st → ∃ x, i = .ldStVx x) ∧
    (t.wait ≠ s.wait → t.wait = true ∧ ∃ x, i = .ldVxK x) ∧
    (t.draw ≠ s.draw → t.draw = true ∧ (i = .cls ∨ ∃ x y n, i = .drwVxVyN x y n)) ∧
    (t.fb ≠ s.fb → i = .cls ∨ ∃ x y n, i = .drwVxVyN x y n) ∧
    (t.sp ≠ s.sp → i = .ret ∨ ∃ nnn, i = .callNnn nnn) ∧ (t.stack ≠ s.stack → ∃ nnn, i = .callNnn nnn) ∧
    (t.mem ≠ s.mem → ∃ x, i = .ldBVx x ∨ i = .ldMemVx x) ∧
    (t.i ≠ s.i → (∃ nnn, i = .ldINnn nnn) ∨ ∃ x, i = .addIVx x ∨ i = .ldFVx x ∨ i = .ldMemVx x ∨ i = .ldVxMem x) ∧
    (t.running ≠ s.running → t.running = false) ∧ (t.err ≠ s.err → t.running = false) ∧
    (t.rndDraws ≠ s.rndDraws → ∃ x nn, i = .rndVxNn x nn)

/-- 10_state.md R26 and R36: no instruction reads ST or OPCODE: with another value there the rest of the result is the same.
For RND the two states compared have the same draw counter, so that they draw the same byte: that is the model's own way of
saying "with the same byte drawn" (log 3, DESIGN CHOICE), since on the hardware two executions may draw different bytes. -/
def Obligations.SoundTimerAndOpcodeAreNeverRead : Prop :=
  ∀ (i : Instr) (s t : State) (b : Byte) (op : Word), exec i s = .next t →
    exec i (s.latchOpcode op) = .next (t.latchOpcode op) ∧
    ((∀ x, i ≠ .ldStVx x) → exec i (s.setSt b) = .next (t.setSt b)) ∧
    (∀ x, i = .ldStVx x → exec i (s.setSt b) = .next t)

/-- 60_exceptions.md R209: a jump to itself is a terminal state: every Step leaves all state as it is, but OPCODE. -/
def Obligations.JumpToItselfIsStationary : Prop :=
  ∀ s : State, s.running = true → s.wait = false → s.pc.toNat ≤ 0xFFE →
    (joinBytes (s.mem.read s.pc.toNat) (s.mem.read (s.pc.toNat + 1))).toNat = 0x1000 + s.pc.toNat →
    ∃ t, step s = .next t ∧ t.opcode.toNat = 0x1000 + s.pc.toNat ∧ Frames (oneOf [.opcode]) s t

/-- 10_state.md (the complete state is the elements of R20 to R34) and 60_exceptions.md R207: two states with canonical memory
(log 20) that agree on every observable element, and on the model's own draw counter (log 3), are equal. -/
def Obligations.ObservationsDetermineTheState : Prop :=
  ∀ s t : State, s.mem.wf → t.mem.wf → (∀ e, observe e s = observe e t) → s.rndDraws = t.rndDraws → s = t
end

