-- ==== Sys2Proof/Laws/Decode.lean ====
section
/-! SUPPORT. The fields of an encoded word, and the bytes of a word: the small facts the statements about decoding rest on.
-/

namespace Sys2Proof

@[simp] theorem joinBytes_highByte_lowByte (op : Word) : joinBytes (highByte op) (lowByte op) = op := by
  apply BitVec.eq_of_getLsbD_eq
  intro k hk
  simp only [joinBytes, highByte, lowByte, BitVec.getLsbD_append, BitVec.getLsbD_extractLsb']
  by_cases h : k < 8
  · simp [h]
  · simp [h, show k - 8 < 8 by omega, show 8 + (k - 8) = k by omega]

@[simp] theorem highByte_joinBytes (hi lo : Byte) : highByte (joinBytes hi lo) = hi := by
  apply BitVec.eq_of_getLsbD_eq
  intro k hk
  simp only [joinBytes, highByte, BitVec.getLsbD_extractLsb']
  rw [BitVec.getLsbD_append]
  simp [hk]

@[simp] theorem lowByte_joinBytes (hi lo : Byte) : lowByte (joinBytes hi lo) = lo := by
  apply BitVec.eq_of_getLsbD_eq
  intro k hk
  simp only [joinBytes, lowByte, BitVec.getLsbD_extractLsb']
  rw [BitVec.getLsbD_append]
  simp [hk]

/-- Two bytes decode, whatever they are. -/
@[simp] theorem decode_two (hi lo : Byte) (rest : List Byte) :
    decode (hi :: lo :: rest) = .ok (decodeWord (joinBytes hi lo), rest) := rfl

/-- At the default `STRICT_DECODE` the decoder is the dispatch tree. -/
theorem decodeWord_eq (op : Word) : decodeWord op = decodeTree op := rfl

/-! ### Fields as numbers -/

theorem fieldG_toNat (op : Word) : (fieldG op).toNat = op.toNat / 4096 % 16 := by
  simp [fieldG, BitVec.extractLsb'_toNat, Nat.shiftRight_eq_div_pow]

theorem fieldX_val (op : Word) : (fieldX op).val = op.toNat / 256 % 16 := by
  simp [fieldX, BitVec.extractLsb'_toNat, Nat.shiftRight_eq_div_pow]

theorem fieldY_val (op : Word) : (fieldY op).val = op.toNat / 16 % 16 := by
  simp [fieldY, BitVec.extractLsb'_toNat, Nat.shiftRight_eq_div_pow]

theorem fieldN_toNat (op : Word) : (fieldN op).toNat = op.toNat % 16 := by
  simp [fieldN, BitVec.extractLsb'_toNat]

theorem fieldNN_toNat (op : Word) : (fieldNN op).toNat = op.toNat % 256 := by
  simp [fieldNN, BitVec.extractLsb'_toNat]

theorem fieldNNN_toNat (op : Word) : (fieldNNN op).toNat = op.toNat % 4096 := by
  simp [fieldNNN, BitVec.extractLsb'_toNat]

/-! ### Encoded words as numbers -/

theorem append_toNat {m n : Nat} (a : BitVec m) (b : BitVec n) : (a ++ b).toNat = a.toNat * 2 ^ n + b.toNat := by
  rw [BitVec.toNat_append, ← Nat.shiftLeft_add_eq_or_of_lt b.isLt, Nat.shiftLeft_eq]

theorem nibbles_toNat (g : Nibble) (x y : Reg) (n : Nibble) :
    (nibbles g x y n).toNat = g.toNat * 4096 + x.val * 256 + y.val * 16 + n.toNat := by
  simp only [nibbles, append_toNat, BitVec.toNat_ofFin]
  omega

theorem formatA_toNat (g : Nibble) (nnn : Addr12) : (formatA g nnn).toNat = g.toNat * 4096 + nnn.toNat := by
  simp only [formatA, append_toNat]
  omega

theorem formatXB_toNat (g : Nibble) (x : Reg) (nn : Byte) :
    (formatXB g x nn).toNat = g.toNat * 4096 + x.val * 256 + nn.toNat := by
  simp only [formatXB, append_toNat, BitVec.toNat_ofFin]
  omega

/-! ### The fields of encoded words -/

section
variable (g n : Nibble) (x y : Reg) (nn : Byte) (nnn : Addr12)

@[simp] theorem fieldG_nibbles : fieldG (nibbles g x y n) = g := by
  have := g.isLt; have := n.isLt; have := x.isLt; have := y.isLt
  apply BitVec.eq_of_toNat_eq
  rw [fieldG_toNat, nibbles_toNat]
  omega

@[simp] theorem fieldX_nibbles : fieldX (nibbles g x y n) = x := by
  have := g.isLt; have := n.isLt; have := x.isLt; have := y.isLt
  apply Fin.ext
  rw [fieldX_val, nibbles_toNat]
  omega

@[simp] theorem fieldY_nibbles : fieldY (nibbles g x y n) = y := by
  have := g.isLt; have := n.isLt; have := x.isLt; have := y.isLt
  apply Fin.ext
  rw [fieldY_val, nibbles_toNat]
  omega

@[simp] theorem fieldN_nibbles : fieldN (nibbles g x y n) = n := by
  have := g.isLt; have := n.isLt; have := x.isLt; have := y.isLt
  apply BitVec.eq_of_toNat_eq
  rw [fieldN_toNat, nibbles_toNat]
  omega

@[simp] theorem fieldG_formatA : fieldG (formatA g nnn) = g := by
  have := g.isLt; have := nnn.isLt
  apply BitVec.eq_of_toNat_eq
  rw [fieldG_toNat, formatA_toNat]
  omega

@[simp] theorem fieldNNN_formatA : fieldNNN (formatA g nnn) = nnn := by
  have := g.isLt; have := nnn.isLt
  apply BitVec.eq_of_toNat_eq
  rw [fieldNNN_toNat, formatA_toNat]
  omega

@[simp] theorem fieldG_formatXB : fieldG (formatXB g x nn) = g := by
  have := g.isLt; have := nn.isLt; have := x.isLt
  apply BitVec.eq_of_toNat_eq
  rw [fieldG_toNat, formatXB_toNat]
  omega

@[simp] theorem fieldX_formatXB : fieldX (formatXB g x nn) = x := by
  have := g.isLt; have := nn.isLt; have := x.isLt
  apply Fin.ext
  rw [fieldX_val, formatXB_toNat]
  omega

@[simp] theorem fieldNN_formatXB : fieldNN (formatXB g x nn) = nn := by
  have := g.isLt; have := nn.isLt; have := x.isLt
  apply BitVec.eq_of_toNat_eq
  rw [fieldNN_toNat, formatXB_toNat]
  omega

/-- The function byte of formats `XB` and `XF` by its two nibbles. -/
theorem fieldY_formatXB : (fieldY (formatXB g x nn)).val = nn.toNat / 16 := by
  have := g.isLt; have := nn.isLt; have := x.isLt
  rw [fieldY_val, formatXB_toNat]
  omega

theorem fieldN_formatXB : (fieldN (formatXB g x nn)).toNat = nn.toNat % 16 := by
  have := g.isLt; have := nn.isLt; have := x.isLt
  rw [fieldN_toNat, formatXB_toNat]
  omega

end

/-! ### The masks of the opcode map, as fields -/

theorem fieldN_formatXB_eq (g : Nibble) (x : Reg) (nn : Byte) : fieldN (formatXB g x nn) = nn.extractLsb' 0 4 := by
  apply BitVec.eq_of_toNat_eq
  rw [fieldN_formatXB]
  simp [BitVec.extractLsb'_toNat]

/-- The decoder's mask of a level-1 row keeps the group. -/
theorem mask_F000 (op : Word) : op &&& 0xF000 = nibbles (fieldG op) 0 0 0 := by
  apply BitVec.eq_of_getLsbD_eq
  intro k hk
  simp only [nibbles, fieldG, BitVec.getLsbD_and, BitVec.getLsbD_append, BitVec.getLsbD_extractLsb']
  interval_cases k <;> simp

/-- The decoder's mask of a level-2 row keeps the group and the low nibble. -/
theorem mask_F00F (op : Word) : op &&& 0xF00F = nibbles (fieldG op) 0 0 (fieldN op) := by
  apply BitVec.eq_of_getLsbD_eq
  intro k hk
  simp only [nibbles, fieldG, fieldN, BitVec.getLsbD_and, BitVec.getLsbD_append, BitVec.getLsbD_extractLsb']
  interval_cases k <;> simp

/-- The decoder's mask of a level-3 row keeps the group and the function byte. -/
theorem mask_F0FF (op : Word) : op &&& 0xF0FF = formatXB (fieldG op) 0 (fieldNN op) := by
  apply BitVec.eq_of_getLsbD_eq
  intro k hk
  simp only [formatXB, fieldG, fieldNN, BitVec.getLsbD_and, BitVec.getLsbD_append, BitVec.getLsbD_extractLsb']
  interval_cases k <;> simp

end Sys2Proof
end

