-- ==== Sys2Proof/Laws/Memory.lean ====
section
/-! SUPPORT. The laws of memory: a read after a write to the same address gives the byte written, a write leaves every other
address alone, and every memory operation keeps the canonical form. -/

namespace Sys2Proof.Machine.Memory

theorem read_filter_ne (m : Memory) (a b : Nat) :
    Memory.read (m.filter fun c => c.1 != a) b = if b = a then unlistedByte b else Memory.read m b := by
  induction m with
  | nil => simp [Memory.read]
  | cons d rest ih =>
    obtain ⟨k, u⟩ := d
    by_cases hk : k = a
    · subst hk
      simp only [List.filter_cons, bne_self_eq_false, Bool.false_eq_true, if_false, ih, Memory.read]
      split <;> simp_all
    · simp only [List.filter_cons, bne_iff_ne, ne_eq, hk, not_false_eq_true, if_true, Memory.read, ih]
      by_cases hb : b = k
      · subst hb; simp [hk]
      · simp [hb]

theorem read_insertCell (m : Memory) (a b : Nat) (v : Byte) (h : ∀ c ∈ m, c.1 ≠ a) :
    Memory.read (Memory.insertCell m (a, v)) b = if b = a then v else Memory.read m b := by
  induction m with
  | nil => simp [Memory.insertCell, Memory.read]
  | cons d rest ih =>
    obtain ⟨k, u⟩ := d
    have hk : k ≠ a := h (k, u) (by simp)
    have ih := ih fun c hc => h c (by simp [hc])
    simp only [Memory.insertCell]
    split
    · simp only [Memory.read]
    · simp only [Memory.read, ih]
      by_cases hb : b = k
      · subst hb; simp [hk]
      · simp [hb]

/-- Read after write. It holds of every list of cells, canonical or not. -/
@[simp] theorem read_write (m : Memory) (a b : Nat) (v : Byte) :
    Memory.read (Memory.write m a v) b = if b = a then v else Memory.read m b := by
  unfold Memory.write
  split
  · next hv =>
    rw [read_filter_ne]
    split
    · next hb => rw [hb, hv]
    · rfl
  · next hv =>
    rw [read_insertCell _ _ _ _ (by simp), read_filter_ne]
    split <;> rfl

/-- Read after a block of writes: the byte of the block inside it, the old byte outside. -/
theorem read_writeBytes (m : Memory) (a b : Nat) (bs : List Byte) :
    Memory.read (Memory.writeBytes m a bs) b =
      if a ≤ b ∧ b < a + bs.length then bs.getD (b - a) 0 else Memory.read m b := by
  induction bs generalizing m a with
  | nil => simp [Memory.writeBytes]
  | cons c cs ih =>
    rw [Memory.writeBytes, ih, read_write]
    by_cases hb : b = a
    · subst hb; simp
    · by_cases hin : a ≤ b ∧ b < a + (c :: cs).length
      · rw [if_pos hin, if_pos (by simp at hin; omega)]
        obtain ⟨j, rfl⟩ : ∃ j, b = a + (j + 1) := ⟨b - a - 1, by omega⟩
        rw [show a + (j + 1) - a = j + 1 by omega, show a + (j + 1) - (a + 1) = j by omega]
        simp
      · rw [if_neg hin, if_neg (by simp at hin ⊢; omega), if_neg hb]

theorem insertCell_mem (m : Memory) (c d : Host.Cell) : d ∈ Memory.insertCell m c ↔ d = c ∨ d ∈ m := by
  induction m with
  | nil => simp [Memory.insertCell]
  | cons e rest ih =>
    simp only [Memory.insertCell]
    split
    · simp
    · simp only [List.mem_cons, ih]; tauto

theorem insertCell_sorted (m : Memory) (c : Host.Cell) (h : m.Pairwise fun p q => p.1 < q.1)
    (hc : ∀ d ∈ m, d.1 ≠ c.1) : (Memory.insertCell m c).Pairwise fun p q => p.1 < q.1 := by
  induction m with
  | nil => simp [Memory.insertCell]
  | cons e rest ih =>
    have he : e.1 ≠ c.1 := hc e (by simp)
    simp only [Memory.insertCell]
    rw [List.pairwise_cons] at h
    split
    · next hlt =>
      refine List.pairwise_cons.2 ⟨?_, List.pairwise_cons.2 h⟩
      intro d hd
      rcases List.mem_cons.1 hd with rfl | hd
      · exact hlt
      · exact Nat.lt_trans hlt (h.1 d hd)
    · next hge =>
      refine List.pairwise_cons.2 ⟨?_, ih h.2 fun d hd => hc d (by simp [hd])⟩
      intro d hd
      rcases (insertCell_mem rest c d).1 hd with rfl | hd
      · omega
      · exact h.1 d hd

/-- A write keeps the canonical form. -/
theorem write_wf (m : Memory) (a : Nat) (v : Byte) (h : m.wf) (ha : a < memSize) : (Memory.write m a v).wf := by
  obtain ⟨hs, hm⟩ := h
  have hf : (m.filter fun c => c.1 != a).Pairwise fun p q => p.1 < q.1 := hs.filter _
  unfold Memory.write
  split
  · exact ⟨hf, fun c hc => hm c (List.mem_filter.1 hc).1⟩
  · next hv =>
    refine ⟨insertCell_sorted _ _ hf (by simp), fun c hc => ?_⟩
    rcases (insertCell_mem _ _ _).1 hc with rfl | hc
    · exact ⟨ha, hv⟩
    · exact hm c (List.mem_filter.1 hc).1

/-- A block of writes inside memory keeps the canonical form. -/
theorem writeBytes_wf (m : Memory) (a : Nat) (bs : List Byte) (h : m.wf) (ha : a + bs.length ≤ memSize) :
    (Memory.writeBytes m a bs).wf := by
  induction bs generalizing m a with
  | nil => exact h
  | cons c cs ih =>
    simp only [List.length_cons] at ha
    exact ih _ _ (write_wf m a c h (by omega)) (by omega)

theorem wf_nil : Memory.wf ([] : Memory) := by simp [Memory.wf]

theorem read_of_forall_ne (m : Memory) (a : Nat) (h : ∀ c ∈ m, c.1 ≠ a) : Memory.read m a = unlistedByte a := by
  induction m with
  | nil => rfl
  | cons d rest ih =>
    obtain ⟨k, u⟩ := d
    have : a ≠ k := fun e => h (k, u) (by simp) e.symm
    simp [Memory.read, this, ih fun c hc => h c (by simp [hc])]

theorem wf_tail {d : Host.Cell} {m : Memory} (h : Memory.wf (d :: m)) : Memory.wf m :=
  ⟨(List.pairwise_cons.1 h.1).2, fun c hc => h.2 c (by simp [hc])⟩

/-- Every other listed address lies above the first. -/
theorem head_lt {d : Host.Cell} {m : Memory} (h : Memory.wf (d :: m)) : ∀ c ∈ m, d.1 < c.1 :=
  (List.pairwise_cons.1 h.1).1

/-- Canonical memories that read alike everywhere are the same list. -/
theorem eq_of_read_eq (m n : Memory) (hm : m.wf) (hn : n.wf) (h : ∀ a, a < memSize → m.read a = n.read a) : m = n := by
  induction m generalizing n with
  | nil =>
    cases n with
    | nil => rfl
    | cons d n =>
      obtain ⟨k, u⟩ := d
      have hk := hn.2 (k, u) (by simp)
      exact absurd (h k hk.1) (by simpa [Memory.read] using hk.2.symm)
  | cons d m ih =>
    obtain ⟨k, u⟩ := d
    have hk := hm.2 (k, u) (by simp)
    cases n with
    | nil => exact absurd (h k hk.1) (by simpa [Memory.read] using hk.2)
    | cons e n =>
      obtain ⟨l, w⟩ := e
      have hl := hn.2 (l, w) (by simp)
      have hkl : k = l := by
        rcases Nat.lt_trichotomy k l with hlt | heq | hgt
        · have := h k hk.1
          rw [read_of_forall_ne ((l, w) :: n) k] at this
          · exact absurd this (by simpa [Memory.read] using hk.2)
          · intro c hc
            rcases List.mem_cons.1 hc with rfl | hc
            · exact Nat.ne_of_gt hlt
            · have := head_lt hn c hc; simp at this; omega
        · exact heq
        · have := h l hl.1
          rw [read_of_forall_ne ((k, u) :: m) l] at this
          · exact absurd this.symm (by simpa [Memory.read] using hl.2)
          · intro c hc
            rcases List.mem_cons.1 hc with rfl | hc
            · exact Nat.ne_of_gt hgt
            · have := head_lt hm c hc; simp at this; omega
      subst hkl
      have huw : u = w := by simpa [Memory.read] using h k hk.1
      subst huw
      have : m = n := ih n (wf_tail hm) (wf_tail hn) fun a ha => by
        by_cases hak : a = k
        · subst hak
          rw [read_of_forall_ne m a fun c hc => by have := head_lt hm c hc; simp at this; omega,
            read_of_forall_ne n a fun c hc => by have := head_lt hn c hc; simp at this; omega]
        · simpa [Memory.read, hak] using h a ha
      rw [this]

end Sys2Proof.Machine.Memory
end

