-- ==== Sys2Proof/Laws/State.lean ====
section
/-! SUPPORT. One lemma per field of State per named update, and what a register reads after each: no later proof unfolds a
record update. -/

namespace Sys2Proof.Machine.State

variable (s : State)

/-! ### writeReg -/

@[simp] theorem writeReg_v (x : Reg) (b : Byte) : (s.writeReg x b).v = s.v.set x b := rfl
@[simp] theorem writeReg_i (x : Reg) (b : Byte) : (s.writeReg x b).i = s.i := rfl
@[simp] theorem writeReg_pc (x : Reg) (b : Byte) : (s.writeReg x b).pc = s.pc := rfl
@[simp] theorem writeReg_sp (x : Reg) (b : Byte) : (s.writeReg x b).sp = s.sp := rfl
@[simp] theorem writeReg_stack (x : Reg) (b : Byte) : (s.writeReg x b).stack = s.stack := rfl
@[simp] theorem writeReg_dt (x : Reg) (b : Byte) : (s.writeReg x b).dt = s.dt := rfl
@[simp] theorem writeReg_st (x : Reg) (b : Byte) : (s.writeReg x b).st = s.st := rfl
@[simp] theorem writeReg_keys (x : Reg) (b : Byte) : (s.writeReg x b).keys = s.keys := rfl
@[simp] theorem writeReg_fb (x : Reg) (b : Byte) : (s.writeReg x b).fb = s.fb := rfl
@[simp] theorem writeReg_draw (x : Reg) (b : Byte) : (s.writeReg x b).draw = s.draw := rfl
@[simp] theorem writeReg_wait (x : Reg) (b : Byte) : (s.writeReg x b).wait = s.wait := rfl
@[simp] theorem writeReg_opcode (x : Reg) (b : Byte) : (s.writeReg x b).opcode = s.opcode := rfl
@[simp] theorem writeReg_running (x : Reg) (b : Byte) : (s.writeReg x b).running = s.running := rfl
@[simp] theorem writeReg_err (x : Reg) (b : Byte) : (s.writeReg x b).err = s.err := rfl
@[simp] theorem writeReg_mem (x : Reg) (b : Byte) : (s.writeReg x b).mem = s.mem := rfl
@[simp] theorem writeReg_rndDraws (x : Reg) (b : Byte) : (s.writeReg x b).rndDraws = s.rndDraws := rfl

/-! ### setI -/

@[simp] theorem setI_v (w : Word) : (s.setI w).v = s.v := rfl
@[simp] theorem setI_i (w : Word) : (s.setI w).i = w := rfl
@[simp] theorem setI_pc (w : Word) : (s.setI w).pc = s.pc := rfl
@[simp] theorem setI_sp (w : Word) : (s.setI w).sp = s.sp := rfl
@[simp] theorem setI_stack (w : Word) : (s.setI w).stack = s.stack := rfl
@[simp] theorem setI_dt (w : Word) : (s.setI w).dt = s.dt := rfl
@[simp] theorem setI_st (w : Word) : (s.setI w).st = s.st := rfl
@[simp] theorem setI_keys (w : Word) : (s.setI w).keys = s.keys := rfl
@[simp] theorem setI_fb (w : Word) : (s.setI w).fb = s.fb := rfl
@[simp] theorem setI_draw (w : Word) : (s.setI w).draw = s.draw := rfl
@[simp] theorem setI_wait (w : Word) : (s.setI w).wait = s.wait := rfl
@[simp] theorem setI_opcode (w : Word) : (s.setI w).opcode = s.opcode := rfl
@[simp] theorem setI_running (w : Word) : (s.setI w).running = s.running := rfl
@[simp] theorem setI_err (w : Word) : (s.setI w).err = s.err := rfl
@[simp] theorem setI_mem (w : Word) : (s.setI w).mem = s.mem := rfl
@[simp] theorem setI_rndDraws (w : Word) : (s.setI w).rndDraws = s.rndDraws := rfl
@[simp] theorem setI_reg (w : Word) (y : Reg) : (s.setI w).reg y = s.reg y := rfl

/-! ### setPc -/

@[simp] theorem setPc_v (w : Word) : (s.setPc w).v = s.v := rfl
@[simp] theorem setPc_i (w : Word) : (s.setPc w).i = s.i := rfl
@[simp] theorem setPc_pc (w : Word) : (s.setPc w).pc = w := rfl
@[simp] theorem setPc_sp (w : Word) : (s.setPc w).sp = s.sp := rfl
@[simp] theorem setPc_stack (w : Word) : (s.setPc w).stack = s.stack := rfl
@[simp] theorem setPc_dt (w : Word) : (s.setPc w).dt = s.dt := rfl
@[simp] theorem setPc_st (w : Word) : (s.setPc w).st = s.st := rfl
@[simp] theorem setPc_keys (w : Word) : (s.setPc w).keys = s.keys := rfl
@[simp] theorem setPc_fb (w : Word) : (s.setPc w).fb = s.fb := rfl
@[simp] theorem setPc_draw (w : Word) : (s.setPc w).draw = s.draw := rfl
@[simp] theorem setPc_wait (w : Word) : (s.setPc w).wait = s.wait := rfl
@[simp] theorem setPc_opcode (w : Word) : (s.setPc w).opcode = s.opcode := rfl
@[simp] theorem setPc_running (w : Word) : (s.setPc w).running = s.running := rfl
@[simp] theorem setPc_err (w : Word) : (s.setPc w).err = s.err := rfl
@[simp] theorem setPc_mem (w : Word) : (s.setPc w).mem = s.mem := rfl
@[simp] theorem setPc_rndDraws (w : Word) : (s.setPc w).rndDraws = s.rndDraws := rfl
@[simp] theorem setPc_reg (w : Word) (y : Reg) : (s.setPc w).reg y = s.reg y := rfl

/-! ### advance -/

@[simp] theorem advance_v : s.advance.v = s.v := rfl
@[simp] theorem advance_i : s.advance.i = s.i := rfl
@[simp] theorem advance_pc : s.advance.pc = s.pc + 2 := rfl
@[simp] theorem advance_sp : s.advance.sp = s.sp := rfl
@[simp] theorem advance_stack : s.advance.stack = s.stack := rfl
@[simp] theorem advance_dt : s.advance.dt = s.dt := rfl
@[simp] theorem advance_st : s.advance.st = s.st := rfl
@[simp] theorem advance_keys : s.advance.keys = s.keys := rfl
@[simp] theorem advance_fb : s.advance.fb = s.fb := rfl
@[simp] theorem advance_draw : s.advance.draw = s.draw := rfl
@[simp] theorem advance_wait : s.advance.wait = s.wait := rfl
@[simp] theorem advance_opcode : s.advance.opcode = s.opcode := rfl
@[simp] theorem advance_running : s.advance.running = s.running := rfl
@[simp] theorem advance_err : s.advance.err = s.err := rfl
@[simp] theorem advance_mem : s.advance.mem = s.mem := rfl
@[simp] theorem advance_rndDraws : s.advance.rndDraws = s.rndDraws := rfl
@[simp] theorem advance_reg (y : Reg) : s.advance.reg y = s.reg y := rfl

/-! ### setDt -/

@[simp] theorem setDt_v (b : Byte) : (s.setDt b).v = s.v := rfl
@[simp] theorem setDt_i (b : Byte) : (s.setDt b).i = s.i := rfl
@[simp] theorem setDt_pc (b : Byte) : (s.setDt b).pc = s.pc := rfl
@[simp] theorem setDt_sp (b : Byte) : (s.setDt b).sp = s.sp := rfl
@[simp] theorem setDt_stack (b : Byte) : (s.setDt b).stack = s.stack := rfl
@[simp] theorem setDt_dt (b : Byte) : (s.setDt b).dt = b := rfl
@[simp] theorem setDt_st (b : Byte) : (s.setDt b).st = s.st := rfl
@[simp] theorem setDt_keys (b : Byte) : (s.setDt b).keys = s.keys := rfl
@[simp] theorem setDt_fb (b : Byte) : (s.setDt b).fb = s.fb := rfl
@[simp] theorem setDt_draw (b : Byte) : (s.setDt b).draw = s.draw := rfl
@[simp] theorem setDt_wait (b : Byte) : (s.setDt b).wait = s.wait := rfl
@[simp] theorem setDt_opcode (b : Byte) : (s.setDt b).opcode = s.opcode := rfl
@[simp] theorem setDt_running (b : Byte) : (s.setDt b).running = s.running := rfl
@[simp] theorem setDt_err (b : Byte) : (s.setDt b).err = s.err := rfl
@[simp] theorem setDt_mem (b : Byte) : (s.setDt b).mem = s.mem := rfl
@[simp] theorem setDt_rndDraws (b : Byte) : (s.setDt b).rndDraws = s.rndDraws := rfl
@[simp] theorem setDt_reg (b : Byte) (y : Reg) : (s.setDt b).reg y = s.reg y := rfl

/-! ### setSt -/

@[simp] theorem setSt_v (b : Byte) : (s.setSt b).v = s.v := rfl
@[simp] theorem setSt_i (b : Byte) : (s.setSt b).i = s.i := rfl
@[simp] theorem setSt_pc (b : Byte) : (s.setSt b).pc = s.pc := rfl
@[simp] theorem setSt_sp (b : Byte) : (s.setSt b).sp = s.sp := rfl
@[simp] theorem setSt_stack (b : Byte) : (s.setSt b).stack = s.stack := rfl
@[simp] theorem setSt_dt (b : Byte) : (s.setSt b).dt = s.dt := rfl
@[simp] theorem setSt_st (b : Byte) : (s.setSt b).st = b := rfl
@[simp] theorem setSt_keys (b : Byte) : (s.setSt b).keys = s.keys := rfl
@[simp] theorem setSt_fb (b : Byte) : (s.setSt b).fb = s.fb := rfl
@[simp] theorem setSt_draw (b : Byte) : (s.setSt b).draw = s.draw := rfl
@[simp] theorem setSt_wait (b : Byte) : (s.setSt b).wait = s.wait := rfl
@[simp] theorem setSt_opcode (b : Byte) : (s.setSt b).opcode = s.opcode := rfl
@[simp] theorem setSt_running (b : Byte) : (s.setSt b).running = s.running := rfl
@[simp] theorem setSt_err (b : Byte) : (s.setSt b).err = s.err := rfl
@[simp] theorem setSt_mem (b : Byte) : (s.setSt b).mem = s.mem := rfl
@[simp] theorem setSt_rndDraws (b : Byte) : (s.setSt b).rndDraws = s.rndDraws := rfl
@[simp] theorem setSt_reg (b : Byte) (y : Reg) : (s.setSt b).reg y = s.reg y := rfl

/-! ### setMem -/

@[simp] theorem setMem_v (m : Memory) : (s.setMem m).v = s.v := rfl
@[simp] theorem setMem_i (m : Memory) : (s.setMem m).i = s.i := rfl
@[simp] theorem setMem_pc (m : Memory) : (s.setMem m).pc = s.pc := rfl
@[simp] theorem setMem_sp (m : Memory) : (s.setMem m).sp = s.sp := rfl
@[simp] theorem setMem_stack (m : Memory) : (s.setMem m).stack = s.stack := rfl
@[simp] theorem setMem_dt (m : Memory) : (s.setMem m).dt = s.dt := rfl
@[simp] theorem setMem_st (m : Memory) : (s.setMem m).st = s.st := rfl
@[simp] theorem setMem_keys (m : Memory) : (s.setMem m).keys = s.keys := rfl
@[simp] theorem setMem_fb (m : Memory) : (s.setMem m).fb = s.fb := rfl
@[simp] theorem setMem_draw (m : Memory) : (s.setMem m).draw = s.draw := rfl
@[simp] theorem setMem_wait (m : Memory) : (s.setMem m).wait = s.wait := rfl
@[simp] theorem setMem_opcode (m : Memory) : (s.setMem m).opcode = s.opcode := rfl
@[simp] theorem setMem_running (m : Memory) : (s.setMem m).running = s.running := rfl
@[simp] theorem setMem_err (m : Memory) : (s.setMem m).err = s.err := rfl
@[simp] theorem setMem_mem (m : Memory) : (s.setMem m).mem = m := rfl
@[simp] theorem setMem_rndDraws (m : Memory) : (s.setMem m).rndDraws = s.rndDraws := rfl
@[simp] theorem setMem_reg (m : Memory) (y : Reg) : (s.setMem m).reg y = s.reg y := rfl

/-! ### showFrame -/

@[simp] theorem showFrame_v (fb : Frame) : (s.showFrame fb).v = s.v := rfl
@[simp] theorem showFrame_i (fb : Frame) : (s.showFrame fb).i = s.i := rfl
@[simp] theorem showFrame_pc (fb : Frame) : (s.showFrame fb).pc = s.pc := rfl
@[simp] theorem showFrame_sp (fb : Frame) : (s.showFrame fb).sp = s.sp := rfl
@[simp] theorem showFrame_stack (fb : Frame) : (s.showFrame fb).stack = s.stack := rfl
@[simp] theorem showFrame_dt (fb : Frame) : (s.showFrame fb).dt = s.dt := rfl
@[simp] theorem showFrame_st (fb : Frame) : (s.showFrame fb).st = s.st := rfl
@[simp] theorem showFrame_keys (fb : Frame) : (s.showFrame fb).keys = s.keys := rfl
@[simp] theorem showFrame_fb (fb : Frame) : (s.showFrame fb).fb = fb := rfl
@[simp] theorem showFrame_draw (fb : Frame) : (s.showFrame fb).draw = true := rfl
@[simp] theorem showFrame_wait (fb : Frame) : (s.showFrame fb).wait = s.wait := rfl
@[simp] theorem showFrame_opcode (fb : Frame) : (s.showFrame fb).opcode = s.opcode := rfl
@[simp] theorem showFrame_running (fb : Frame) : (s.showFrame fb).running = s.running := rfl
@[simp] theorem showFrame_err (fb : Frame) : (s.showFrame fb).err = s.err := rfl
@[simp] theorem showFrame_mem (fb : Frame) : (s.showFrame fb).mem = s.mem := rfl
@[simp] theorem showFrame_rndDraws (fb : Frame) : (s.showFrame fb).rndDraws = s.rndDraws := rfl
@[simp] theorem showFrame_reg (fb : Frame) (y : Reg) : (s.showFrame fb).reg y = s.reg y := rfl

/-! ### clearDraw -/

@[simp] theorem clearDraw_v : s.clearDraw.v = s.v := rfl
@[simp] theorem clearDraw_i : s.clearDraw.i = s.i := rfl
@[simp] theorem clearDraw_pc : s.clearDraw.pc = s.pc := rfl
@[simp] theorem clearDraw_sp : s.clearDraw.sp = s.sp := rfl
@[simp] theorem clearDraw_stack : s.clearDraw.stack = s.stack := rfl
@[simp] theorem clearDraw_dt : s.clearDraw.dt = s.dt := rfl
@[simp] theorem clearDraw_st : s.clearDraw.st = s.st := rfl
@[simp] theorem clearDraw_keys : s.clearDraw.keys = s.keys := rfl
@[simp] theorem clearDraw_fb : s.clearDraw.fb = s.fb := rfl
@[simp] theorem clearDraw_draw : s.clearDraw.draw = false := rfl
@[simp] theorem clearDraw_wait : s.clearDraw.wait = s.wait := rfl
@[simp] theorem clearDraw_opcode : s.clearDraw.opcode = s.opcode := rfl
@[simp] theorem clearDraw_running : s.clearDraw.running = s.running := rfl
@[simp] theorem clearDraw_err : s.clearDraw.err = s.err := rfl
@[simp] theorem clearDraw_mem : s.clearDraw.mem = s.mem := rfl
@[simp] theorem clearDraw_rndDraws : s.clearDraw.rndDraws = s.rndDraws := rfl
@[simp] theorem clearDraw_reg (y : Reg) : s.clearDraw.reg y = s.reg y := rfl

/-! ### setWait -/

@[simp] theorem setWait_v (b : Bool) : (s.setWait b).v = s.v := rfl
@[simp] theorem setWait_i (b : Bool) : (s.setWait b).i = s.i := rfl
@[simp] theorem setWait_pc (b : Bool) : (s.setWait b).pc = s.pc := rfl
@[simp] theorem setWait_sp (b : Bool) : (s.setWait b).sp = s.sp := rfl
@[simp] theorem setWait_stack (b : Bool) : (s.setWait b).stack = s.stack := rfl
@[simp] theorem setWait_dt (b : Bool) : (s.setWait b).dt = s.dt := rfl
@[simp] theorem setWait_st (b : Bool) : (s.setWait b).st = s.st := rfl
@[simp] theorem setWait_keys (b : Bool) : (s.setWait b).keys = s.keys := rfl
@[simp] theorem setWait_fb (b : Bool) : (s.setWait b).fb = s.fb := rfl
@[simp] theorem setWait_draw (b : Bool) : (s.setWait b).draw = s.draw := rfl
@[simp] theorem setWait_wait (b : Bool) : (s.setWait b).wait = b := rfl
@[simp] theorem setWait_opcode (b : Bool) : (s.setWait b).opcode = s.opcode := rfl
@[simp] theorem setWait_running (b : Bool) : (s.setWait b).running = s.running := rfl
@[simp] theorem setWait_err (b : Bool) : (s.setWait b).err = s.err := rfl
@[simp] theorem setWait_mem (b : Bool) : (s.setWait b).mem = s.mem := rfl
@[simp] theorem setWait_rndDraws (b : Bool) : (s.setWait b).rndDraws = s.rndDraws := rfl
@[simp] theorem setWait_reg (b : Bool) (y : Reg) : (s.setWait b).reg y = s.reg y := rfl

/-! ### setKeys -/

@[simp] theorem setKeys_v (w : Word) : (s.setKeys w).v = s.v := rfl
@[simp] theorem setKeys_i (w : Word) : (s.setKeys w).i = s.i := rfl
@[simp] theorem setKeys_pc (w : Word) : (s.setKeys w).pc = s.pc := rfl
@[simp] theorem setKeys_sp (w : Word) : (s.setKeys w).sp = s.sp := rfl
@[simp] theorem setKeys_stack (w : Word) : (s.setKeys w).stack = s.stack := rfl
@[simp] theorem setKeys_dt (w : Word) : (s.setKeys w).dt = s.dt := rfl
@[simp] theorem setKeys_st (w : Word) : (s.setKeys w).st = s.st := rfl
@[simp] theorem setKeys_keys (w : Word) : (s.setKeys w).keys = w := rfl
@[simp] theorem setKeys_fb (w : Word) : (s.setKeys w).fb = s.fb := rfl
@[simp] theorem setKeys_draw (w : Word) : (s.setKeys w).draw = s.draw := rfl
@[simp] theorem setKeys_wait (w : Word) : (s.setKeys w).wait = s.wait := rfl
@[simp] theorem setKeys_opcode (w : Word) : (s.setKeys w).opcode = s.opcode := rfl
@[simp] theorem setKeys_running (w : Word) : (s.setKeys w).running = s.running := rfl
@[simp] theorem setKeys_err (w : Word) : (s.setKeys w).err = s.err := rfl
@[simp] theorem setKeys_mem (w : Word) : (s.setKeys w).mem = s.mem := rfl
@[simp] theorem setKeys_rndDraws (w : Word) : (s.setKeys w).rndDraws = s.rndDraws := rfl
@[simp] theorem setKeys_reg (w : Word) (y : Reg) : (s.setKeys w).reg y = s.reg y := rfl

/-! ### latchOpcode -/

@[simp] theorem latchOpcode_v (w : Word) : (s.latchOpcode w).v = s.v := rfl
@[simp] theorem latchOpcode_i (w : Word) : (s.latchOpcode w).i = s.i := rfl
@[simp] theorem latchOpcode_pc (w : Word) : (s.latchOpcode w).pc = s.pc := rfl
@[simp] theorem latchOpcode_sp (w : Word) : (s.latchOpcode w).sp = s.sp := rfl
@[simp] theorem latchOpcode_stack (w : Word) : (s.latchOpcode w).stack = s.stack := rfl
@[simp] theorem latchOpcode_dt (w : Word) : (s.latchOpcode w).dt = s.dt := rfl
@[simp] theorem latchOpcode_st (w : Word) : (s.latchOpcode w).st = s.st := rfl
@[simp] theorem latchOpcode_keys (w : Word) : (s.latchOpcode w).keys = s.keys := rfl
@[simp] theorem latchOpcode_fb (w : Word) : (s.latchOpcode w).fb = s.fb := rfl
@[simp] theorem latchOpcode_draw (w : Word) : (s.latchOpcode w).draw = s.draw := rfl
@[simp] theorem latchOpcode_wait (w : Word) : (s.latchOpcode w).wait = s.wait := rfl
@[simp] theorem latchOpcode_opcode (w : Word) : (s.latchOpcode w).opcode = w := rfl
@[simp] theorem latchOpcode_running (w : Word) : (s.latchOpcode w).running = s.running := rfl
@[simp] theorem latchOpcode_err (w : Word) : (s.latchOpcode w).err = s.err := rfl
@[simp] theorem latchOpcode_mem (w : Word) : (s.latchOpcode w).mem = s.mem := rfl
@[simp] theorem latchOpcode_rndDraws (w : Word) : (s.latchOpcode w).rndDraws = s.rndDraws := rfl
@[simp] theorem latchOpcode_reg (w : Word) (y : Reg) : (s.latchOpcode w).reg y = s.reg y := rfl

/-! ### setStack -/

@[simp] theorem setStack_v (k : Vector Word 16) (n : Fin 17) : (s.setStack k n).v = s.v := rfl
@[simp] theorem setStack_i (k : Vector Word 16) (n : Fin 17) : (s.setStack k n).i = s.i := rfl
@[simp] theorem setStack_pc (k : Vector Word 16) (n : Fin 17) : (s.setStack k n).pc = s.pc := rfl
@[simp] theorem setStack_sp (k : Vector Word 16) (n : Fin 17) : (s.setStack k n).sp = n := rfl
@[simp] theorem setStack_stack (k : Vector Word 16) (n : Fin 17) : (s.setStack k n).stack = k := rfl
@[simp] theorem setStack_dt (k : Vector Word 16) (n : Fin 17) : (s.setStack k n).dt = s.dt := rfl
@[simp] theorem setStack_st (k : Vector Word 16) (n : Fin 17) : (s.setStack k n).st = s.st := rfl
@[simp] theorem setStack_keys (k : Vector Word 16) (n : Fin 17) : (s.setStack k n).keys = s.keys := rfl
@[simp] theorem setStack_fb (k : Vector Word 16) (n : Fin 17) : (s.setStack k n).fb = s.fb := rfl
@[simp] theorem setStack_draw (k : Vector Word 16) (n : Fin 17) : (s.setStack k n).draw = s.draw := rfl
@[simp] theorem setStack_wait (k : Vector Word 16) (n : Fin 17) : (s.setStack k n).wait = s.wait := rfl
@[simp] theorem setStack_opcode (k : Vector Word 16) (n : Fin 17) : (s.setStack k n).opcode = s.opcode := rfl
@[simp] theorem setStack_running (k : Vector Word 16) (n : Fin 17) : (s.setStack k n).running = s.running := rfl
@[simp] theorem setStack_err (k : Vector Word 16) (n : Fin 17) : (s.setStack k n).err = s.err := rfl
@[simp] theorem setStack_mem (k : Vector Word 16) (n : Fin 17) : (s.setStack k n).mem = s.mem := rfl
@[simp] theorem setStack_rndDraws (k : Vector Word 16) (n : Fin 17) : (s.setStack k n).rndDraws = s.rndDraws := rfl
@[simp] theorem setStack_reg (k : Vector Word 16) (n : Fin 17) (y : Reg) : (s.setStack k n).reg y = s.reg y := rfl

/-! ### countDraw -/

@[simp] theorem countDraw_v : s.countDraw.v = s.v := rfl
@[simp] theorem countDraw_i : s.countDraw.i = s.i := rfl
@[simp] theorem countDraw_pc : s.countDraw.pc = s.pc := rfl
@[simp] theorem countDraw_sp : s.countDraw.sp = s.sp := rfl
@[simp] theorem countDraw_stack : s.countDraw.stack = s.stack := rfl
@[simp] theorem countDraw_dt : s.countDraw.dt = s.dt := rfl
@[simp] theorem countDraw_st : s.countDraw.st = s.st := rfl
@[simp] theorem countDraw_keys : s.countDraw.keys = s.keys := rfl
@[simp] theorem countDraw_fb : s.countDraw.fb = s.fb := rfl
@[simp] theorem countDraw_draw : s.countDraw.draw = s.draw := rfl
@[simp] theorem countDraw_wait : s.countDraw.wait = s.wait := rfl
@[simp] theorem countDraw_opcode : s.countDraw.opcode = s.opcode := rfl
@[simp] theorem countDraw_running : s.countDraw.running = s.running := rfl
@[simp] theorem countDraw_err : s.countDraw.err = s.err := rfl
@[simp] theorem countDraw_mem : s.countDraw.mem = s.mem := rfl
@[simp] theorem countDraw_rndDraws : s.countDraw.rndDraws = s.rndDraws + 1 := rfl
@[simp] theorem countDraw_reg (y : Reg) : s.countDraw.reg y = s.reg y := rfl

/-! ### halt -/

@[simp] theorem halt_v (c : FatalCode) : (s.halt c).v = s.v := rfl
@[simp] theorem halt_i (c : FatalCode) : (s.halt c).i = s.i := rfl
@[simp] theorem halt_pc (c : FatalCode) : (s.halt c).pc = s.pc := rfl
@[simp] theorem halt_sp (c : FatalCode) : (s.halt c).sp = s.sp := rfl
@[simp] theorem halt_stack (c : FatalCode) : (s.halt c).stack = s.stack := rfl
@[simp] theorem halt_dt (c : FatalCode) : (s.halt c).dt = s.dt := rfl
@[simp] theorem halt_st (c : FatalCode) : (s.halt c).st = s.st := rfl
@[simp] theorem halt_keys (c : FatalCode) : (s.halt c).keys = s.keys := rfl
@[simp] theorem halt_fb (c : FatalCode) : (s.halt c).fb = s.fb := rfl
@[simp] theorem halt_draw (c : FatalCode) : (s.halt c).draw = s.draw := rfl
@[simp] theorem halt_wait (c : FatalCode) : (s.halt c).wait = s.wait := rfl
@[simp] theorem halt_opcode (c : FatalCode) : (s.halt c).opcode = s.opcode := rfl
@[simp] theorem halt_running (c : FatalCode) : (s.halt c).running = false := rfl
@[simp] theorem halt_err (c : FatalCode) : (s.halt c).err = c.toError := rfl
@[simp] theorem halt_mem (c : FatalCode) : (s.halt c).mem = s.mem := rfl
@[simp] theorem halt_rndDraws (c : FatalCode) : (s.halt c).rndDraws = s.rndDraws := rfl
@[simp] theorem halt_reg (c : FatalCode) (y : Reg) : (s.halt c).reg y = s.reg y := rfl

/-! ### writeResultFlag -/

@[simp] theorem writeResultFlag_v (x : Reg) (r f : Byte) : (s.writeResultFlag x r f).v = (s.v.set x r).set flagReg f := rfl
@[simp] theorem writeResultFlag_i (x : Reg) (r f : Byte) : (s.writeResultFlag x r f).i = s.i := rfl
@[simp] theorem writeResultFlag_pc (x : Reg) (r f : Byte) : (s.writeResultFlag x r f).pc = s.pc := rfl
@[simp] theorem writeResultFlag_sp (x : Reg) (r f : Byte) : (s.writeResultFlag x r f).sp = s.sp := rfl
@[simp] theorem writeResultFlag_stack (x : Reg) (r f : Byte) : (s.writeResultFlag x r f).stack = s.stack := rfl
@[simp] theorem writeResultFlag_dt (x : Reg) (r f : Byte) : (s.writeResultFlag x r f).dt = s.dt := rfl
@[simp] theorem writeResultFlag_st (x : Reg) (r f : Byte) : (s.writeResultFlag x r f).st = s.st := rfl
@[simp] theorem writeResultFlag_keys (x : Reg) (r f : Byte) : (s.writeResultFlag x r f).keys = s.keys := rfl
@[simp] theorem writeResultFlag_fb (x : Reg) (r f : Byte) : (s.writeResultFlag x r f).fb = s.fb := rfl
@[simp] theorem writeResultFlag_draw (x : Reg) (r f : Byte) : (s.writeResultFlag x r f).draw = s.draw := rfl
@[simp] theorem writeResultFlag_wait (x : Reg) (r f : Byte) : (s.writeResultFlag x r f).wait = s.wait := rfl
@[simp] theorem writeResultFlag_opcode (x : Reg) (r f : Byte) : (s.writeResultFlag x r f).opcode = s.opcode := rfl
@[simp] theorem writeResultFlag_running (x : Reg) (r f : Byte) : (s.writeResultFlag x r f).running = s.running := rfl
@[simp] theorem writeResultFlag_err (x : Reg) (r f : Byte) : (s.writeResultFlag x r f).err = s.err := rfl
@[simp] theorem writeResultFlag_mem (x : Reg) (r f : Byte) : (s.writeResultFlag x r f).mem = s.mem := rfl
@[simp] theorem writeResultFlag_rndDraws (x : Reg) (r f : Byte) : (s.writeResultFlag x r f).rndDraws = s.rndDraws := rfl

/-! ### stepIndex -/

@[simp] theorem stepIndex_v (x : Reg) : (s.stepIndex x).v = s.v := rfl
@[simp] theorem stepIndex_i (x : Reg) : (s.stepIndex x).i = s.i + BitVec.ofNat 16 (blockLength x) := rfl
@[simp] theorem stepIndex_pc (x : Reg) : (s.stepIndex x).pc = s.pc := rfl
@[simp] theorem stepIndex_sp (x : Reg) : (s.stepIndex x).sp = s.sp := rfl
@[simp] theorem stepIndex_stack (x : Reg) : (s.stepIndex x).stack = s.stack := rfl
@[simp] theorem stepIndex_dt (x : Reg) : (s.stepIndex x).dt = s.dt := rfl
@[simp] theorem stepIndex_st (x : Reg) : (s.stepIndex x).st = s.st := rfl
@[simp] theorem stepIndex_keys (x : Reg) : (s.stepIndex x).keys = s.keys := rfl
@[simp] theorem stepIndex_fb (x : Reg) : (s.stepIndex x).fb = s.fb := rfl
@[simp] theorem stepIndex_draw (x : Reg) : (s.stepIndex x).draw = s.draw := rfl
@[simp] theorem stepIndex_wait (x : Reg) : (s.stepIndex x).wait = s.wait := rfl
@[simp] theorem stepIndex_opcode (x : Reg) : (s.stepIndex x).opcode = s.opcode := rfl
@[simp] theorem stepIndex_running (x : Reg) : (s.stepIndex x).running = s.running := rfl
@[simp] theorem stepIndex_err (x : Reg) : (s.stepIndex x).err = s.err := rfl
@[simp] theorem stepIndex_mem (x : Reg) : (s.stepIndex x).mem = s.mem := rfl
@[simp] theorem stepIndex_rndDraws (x : Reg) : (s.stepIndex x).rndDraws = s.rndDraws := rfl
@[simp] theorem stepIndex_reg (x : Reg) (y : Reg) : (s.stepIndex x).reg y = s.reg y := rfl

/-! ### Reading a register back (10_state.md R20: no register is hard-wired) -/

@[simp] theorem writeReg_reg (x : Reg) (b : Byte) (y : Reg) :
    (s.writeReg x b).reg y = if y = x then b else s.reg y := by
  simp [State.reg, State.writeReg, Vector.getElem_set, Fin.ext_iff, eq_comm]

@[simp] theorem writeResultFlag_reg (x : Reg) (r f : Byte) (y : Reg) :
    (s.writeResultFlag x r f).reg y = if y = flagReg then f else if y = x then r else s.reg y := by
  simp [State.writeResultFlag]

/-- Two states with the same fields are equal, the registers read one by one. -/
theorem v_ext (s t : State) (h : ∀ x, s.reg x = t.reg x) : s.v = t.v := by
  apply Vector.ext
  intro k hk
  exact h ⟨k, hk⟩

end Sys2Proof.Machine.State
end

