-- ==== Sys2Proof/Laws/Ops.lean ====
section
/-! SUPPORT. One lemma per shared operation: everything the operation can answer. -/

namespace Sys2Proof.Machine

theorem inRange_iff (start len : Nat) : inRange start len = true ↔ len = 0 ∨ start + len - 1 < memSize := by
  simp [inRange]

/-- An access with at least one byte is in range exactly when its last byte is. -/
theorem inRange_succ (start len : Nat) : inRange start (len + 1) = true ↔ start + len < memSize := by
  rw [inRange_iff]; omega

@[simp] theorem readBlock_some (start len : Nat) (s : State) (h : inRange start len = true) :
    readBlock start len s = some ((List.range len).map fun k => s.mem.read (start + k)) := by
  simp [readBlock, h]

@[simp] theorem readBlock_none (start len : Nat) (s : State) (h : inRange start len = false) :
    readBlock start len s = none := by
  simp [readBlock, h]

@[simp] theorem writeBlock_some (start : Nat) (bs : List Byte) (s : State) (h : inRange start bs.length = true) :
    writeBlock start bs s = some (s.setMem (s.mem.writeBytes start bs)) := by
  simp [writeBlock, h]

@[simp] theorem writeBlock_none (start : Nat) (bs : List Byte) (s : State) (h : inRange start bs.length = false) :
    writeBlock start bs s = none := by
  simp [writeBlock, h]

theorem memRead_eq (a : Nat) (s : State) : memRead a s = if a < memSize then some (s.mem.read a) else none := by
  simp [memRead, inRange]

/-- The fetch: the two bytes at PC, high byte first, when both are in memory. -/
theorem fetchWord_eq (s : State) :
    fetchWord s =
      if s.pc.toNat ≤ 0xFFE then some (joinBytes (s.mem.read s.pc.toNat) (s.mem.read (s.pc.toNat + 1))) else none := by
  simp only [fetchWord, memRead_eq, memSize]
  by_cases h : s.pc.toNat ≤ 0xFFE
  · simp [h, show s.pc.toNat < 4096 by omega, show s.pc.toNat + 1 < 4096 by omega]
  · simp [h, show ¬ s.pc.toNat + 1 < 4096 by omega]

/-- A push writes PC at SP and raises SP by one. -/
theorem pushPc_cases (s : State) :
    (s.sp.val = 16 ∧ pushPc s = none) ∨
    (∃ h : s.sp.val < 16, pushPc s = some (s.setStack (s.stack.set s.sp.val s.pc h) ⟨s.sp.val + 1, by omega⟩)) := by
  by_cases h : s.sp.val < 16
  · exact .inr ⟨h, by simp [pushPc, h]⟩
  · exact .inl ⟨by have := s.sp.isLt; omega, by simp [pushPc, h]⟩

/-- A pop answers the entry below SP and lowers SP by one; the entries stay. -/
theorem popStack_cases (s : State) :
    (s.sp.val = 0 ∧ popStack s = none) ∨
    (∃ k : Fin 16, s.sp.val = k.val + 1 ∧
      popStack s = some (s.stack[k], s.setStack s.stack ⟨k.val, by omega⟩)) := by
  by_cases h : 0 < s.sp.val
  · refine .inr ⟨⟨s.sp.val - 1, by have := s.sp.isLt; omega⟩, by simp; omega, ?_⟩
    simp [popStack, h]
  · exact .inl ⟨by omega, by simp [popStack, h]⟩

theorem jumpTo_cases (t : Nat) (s : State) :
    (memSize ≤ t ∧ jumpTo t s = raiseFatal .aob s) ∨
    (t < memSize ∧ jumpTo t s = .next (s.setPc (BitVec.ofNat 16 t))) := by
  by_cases h : memSize ≤ t
  · exact .inl ⟨h, by simp [jumpTo, h]⟩
  · exact .inr ⟨by omega, by simp [jumpTo, h]⟩

/-! ### The block load of registers -/

/-- Registers from `k` on take the bytes in order, the others keep theirs. -/
theorem loadRegs_reg (k : Nat) (bs : List Byte) (s : State) (x : Reg) :
    (loadRegs k bs s).reg x = if k ≤ x.val ∧ x.val < k + bs.length then bs.getD (x.val - k) 0 else s.reg x := by
  induction bs generalizing k s with
  | nil => simp [loadRegs]
  | cons b bs ih =>
    rw [loadRegs, ih]
    by_cases hk : x.val = k
    · have hk16 : k < 16 := hk ▸ x.isLt
      have hx : x = ⟨k, hk16⟩ := Fin.ext hk
      subst hx
      simp [hk16]
    · have hne : (if h : k < 16 then s.writeReg ⟨k, h⟩ b else s).reg x = s.reg x := by
        split
        · next h => simp [Fin.ext_iff, hk]
        · rfl
      rw [hne]
      by_cases hin : k ≤ x.val ∧ x.val < k + (b :: bs).length
      · rw [if_pos hin, if_pos (by simp at hin; omega)]
        obtain ⟨j, hj⟩ : ∃ j, x.val = k + (j + 1) := ⟨x.val - k - 1, by omega⟩
        rw [hj, show k + (j + 1) - k = j + 1 by omega, show k + (j + 1) - (k + 1) = j by omega]
        simp
      · rw [if_neg hin, if_neg (by simp at hin ⊢; omega)]

/-- A block load writes general registers and nothing else. -/
theorem loadRegs_eq (k : Nat) (bs : List Byte) (s : State) :
    loadRegs k bs s = { s with v := (loadRegs k bs s).v } := by
  induction bs generalizing k s with
  | nil => rfl
  | cons b bs ih =>
    rw [loadRegs, ih]
    split <;> rfl

/-- `V[0]` to `V[x]`, one by one. -/
theorem regsUpTo_length (x : Reg) (s : State) : (regsUpTo x s).length = x.val + 1 := by
  simp [regsUpTo]

theorem regsUpTo_getD (x : Reg) (s : State) (k : Reg) (h : k.val ≤ x.val) :
    (regsUpTo x s).getD k.val 0 = s.reg k := by
  simp [regsUpTo, State.reg, List.getD_eq_getElem?_getD, show k.val < x.val + 1 by omega]

/-! ### The key that ends a wait -/

theorem firstKeyOf_some (ks : List Reg) (w : Word) (k : Reg) (h : firstKeyOf ks w = some k) :
    k ∈ ks ∧ w.getLsbD k.val = true := by
  induction ks with
  | nil => simp [firstKeyOf] at h
  | cons j ks ih =>
    simp only [firstKeyOf] at h
    split at h
    · next hj => cases h; exact ⟨by simp, hj⟩
    · exact ⟨by simp [(ih h).1], (ih h).2⟩

theorem firstKeyOf_none (ks : List Reg) (w : Word) (h : firstKeyOf ks w = none) : ∀ k ∈ ks, w.getLsbD k.val = false := by
  induction ks with
  | nil => simp
  | cons j ks ih =>
    simp only [firstKeyOf] at h
    split at h
    · cases h
    · next hj =>
      intro k hk
      rcases List.mem_cons.1 hk with rfl | hk
      · simpa using hj
      · exact ih h k hk

theorem firstKeyOf_least (ks : List Reg) (w : Word) (k : Reg) (hs : ks.Pairwise (· < ·)) (h : firstKeyOf ks w = some k) :
    ∀ j ∈ ks, w.getLsbD j.val = true → k ≤ j := by
  induction ks with
  | nil => simp
  | cons i ks ih =>
    rw [List.pairwise_cons] at hs
    simp only [firstKeyOf] at h
    split at h
    · cases h
      intro j hj _
      rcases List.mem_cons.1 hj with rfl | hj
      · exact Fin.le_refl _
      · exact Fin.le_of_lt (hs.1 j hj)
    · next hi =>
      intro j hj hw
      rcases List.mem_cons.1 hj with rfl | hj
      · exact absurd hw hi
      · exact ih hs.2 h j hj hw

/-- Every key is on the list `lowestKey` searches. -/
theorem mem_allKeys : ∀ k : Reg, k ∈ ([0, 1, 2, 3, 4, 5, 6, 7, 8, 9, 10, 11, 12, 13, 14, 15] : List Reg) := by decide

/-- `lowestKey` answers the least key whose bit is set, and nothing exactly when no bit is set. -/
theorem lowestKey_spec (w : Word) :
    (lowestKey w = none ∧ ∀ k : Reg, w.getLsbD k.val = false) ∨
    (∃ k, lowestKey w = some k ∧ w.getLsbD k.val = true ∧ ∀ j : Reg, w.getLsbD j.val = true → k ≤ j) := by
  cases h : lowestKey w with
  | none => exact .inl ⟨rfl, fun k => firstKeyOf_none _ _ h k (mem_allKeys k)⟩
  | some k =>
    exact .inr ⟨k, rfl, (firstKeyOf_some _ _ _ h).2, fun j => firstKeyOf_least _ _ _ (by decide) h j (mem_allKeys j)⟩

/-- A wait is resolved by writing the register OPCODE names, or the state is as it was. -/
theorem resolveWait_cases (w : Word) (s : State) :
    resolveWait w s = s ∨
    (∃ k, s.wait = true ∧ lowestKey w = some k ∧
      resolveWait w s = (s.writeReg (fieldX s.opcode) (BitVec.ofNat 8 k.val)).setWait false) := by
  unfold resolveWait
  cases hw : s.wait <;> cases hk : lowestKey w <;> simp

/-! ### Every meaning answers a next state -/

@[simp] theorem raiseFatal_eq (c : FatalCode) (s : State) : raiseFatal c s = .next (s.halt c) := rfl

end Sys2Proof.Machine
end

