-- ==== Sys2Proof/Laws/Display.lean ====
section
/-! SUPPORT. What drawing a sprite does to each pixel and to the collision flag, under either value of `SPRITE_WRAP`
(43_display.md R142, R144). The point is that no pixel is visited twice (R142 (h)). -/

namespace Sys2Proof.Machine

/-- Inverting one pixel inverts that pixel and no other. -/
theorem Frame.pixel_flip (fb : Frame) (px py qx qy : Nat) (hx : qx < 64) (hy : qy < 32) :
    Frame.pixel (Frame.flip fb px py) qx qy =
      if qx = px ∧ qy = py then !Frame.pixel fb qx qy else Frame.pixel fb qx qy := by
  unfold Frame.pixel Frame.flip
  by_cases hp : py < 32
  · simp only [hp, hy, dite_true, Vector.getElem_set]
    by_cases hq : py = qy
    · subst hq
      simp only [if_true, BitVec.getLsbD_xor, BitVec.getLsbD_twoPow, and_true]
      by_cases hpx : qx = px
      · subst hpx; simp [hx]
      · have : ¬ px = qx := fun e => hpx e.symm
        simp [hpx, this]
    · have : ¬ qy = py := fun e => hq e.symm
      simp [hq, this]
  · have : ¬ qy = py := fun e => hp (e ▸ hy)
    simp [hp, this]

@[simp] theorem Frame.pixel_blank (px py : Nat) : Frame.pixel Frame.blank px py = false := by
  unfold Frame.pixel Frame.blank
  split <;> simp

/-- Where a pixel falls. -/
theorem placePixel_eq_some (wrap : Bool) (px py qx qy : Nat) :
    placePixel wrap px py = some (qx, qy) ↔
      (wrap = true ∧ px % 64 = qx ∧ py % 32 = qy) ∨ (wrap = false ∧ px < 64 ∧ py < 32 ∧ px = qx ∧ py = qy) := by
  cases wrap
  · by_cases h : px < 64 ∧ py < 32
    · simp [placePixel, fbWidth, fbHeight, h]
    · have hn : placePixel false px py = none := by simp only [placePixel, fbWidth, fbHeight]; simp [h]
      rw [hn]
      simp
      omega
  · simp [placePixel, fbWidth, fbHeight]

/-- Where a pixel falls lies on the screen. -/
theorem placePixel_onScreen {wrap : Bool} {px py qx qy : Nat} (h : placePixel wrap px py = some (qx, qy)) :
    qx < 64 ∧ qy < 32 := by
  rw [placePixel_eq_some] at h; omega

/-- Two pixels of one sprite never fall on the same place: columns within 8, rows within 32. -/
theorem placePixel_inj {wrap : Bool} {x0 y0 c c' r r' : Nat} {p : Nat × Nat} (hc : c < 8) (hc' : c' < 8) (hr : r < 32)
    (hr' : r' < 32) (h : placePixel wrap (x0 + c) (y0 + r) = some p) (h' : placePixel wrap (x0 + c') (y0 + r') = some p) :
    c = c' ∧ r = r' := by
  obtain ⟨a, b⟩ := p
  rw [placePixel_eq_some] at h h'
  cases wrap
  · simp at h h'; omega
  · simp at h h'
    have hx : (x0 + c) % 64 = (x0 + c') % 64 := by omega
    have hy : (y0 + r) % 32 = (y0 + r') % 32 := by omega
    constructor <;> omega

theorem plotPixel_pixel (wrap : Bool) (px py qx qy : Nat) (d : Drawing) (hx : qx < 64) (hy : qy < 32) :
    Frame.pixel (plotPixel wrap px py d).fb qx qy =
      (Frame.pixel d.fb qx qy ^^ decide (placePixel wrap px py = some (qx, qy))) := by
  unfold plotPixel
  cases h : placePixel wrap px py with
  | none => simp
  | some p =>
    obtain ⟨a, b⟩ := p
    simp only [Frame.pixel_flip _ _ _ _ _ hx hy, Option.some.injEq, Prod.mk.injEq]
    by_cases hq : qx = a ∧ qy = b
    · obtain ⟨rfl, rfl⟩ := hq; simp
    · rw [if_neg hq, decide_eq_false (by omega)]; simp

theorem plotPixel_collided (wrap : Bool) (px py : Nat) (d : Drawing) :
    (plotPixel wrap px py d).collided = true ↔
      d.collided = true ∨ ∃ p, placePixel wrap px py = some p ∧ Frame.pixel d.fb p.1 p.2 = true := by
  unfold plotPixel
  cases h : placePixel wrap px py with
  | none => simp
  | some p => simp

/-- Row `r` of a sprite at `(x0, y0)`: the pixels it inverts. -/
theorem drawColumns_pixel (wrap : Bool) (x0 y0 r : Nat) (b : Byte) (cs : List Nat) (d : Drawing) (hr : r < 32)
    (hcs : ∀ c ∈ cs, c < 8) (hnd : cs.Nodup) (qx qy : Nat) (hx : qx < 64) (hy : qy < 32) :
    Frame.pixel (drawColumns wrap x0 (y0 + r) b cs d).fb qx qy =
      (Frame.pixel d.fb qx qy ^^
        decide (∃ c ∈ cs, b.getLsbD (7 - c) = true ∧ placePixel wrap (x0 + c) (y0 + r) = some (qx, qy))) := by
  induction cs generalizing d with
  | nil => simp [drawColumns]
  | cons c cs ih =>
    rw [List.nodup_cons] at hnd
    rw [drawColumns, ih _ (fun k hk => hcs k (by simp [hk])) hnd.2]
    by_cases hb : b.getLsbD (7 - c) = true
    · rw [if_pos hb, plotPixel_pixel _ _ _ _ _ _ hx hy]
      by_cases hp : placePixel wrap (x0 + c) (y0 + r) = some (qx, qy)
      · have hno : ¬ ∃ k ∈ cs, b.getLsbD (7 - k) = true ∧ placePixel wrap (x0 + k) (y0 + r) = some (qx, qy) := by
          rintro ⟨k, hk, -, hkp⟩
          have := (placePixel_inj (hcs c (by simp)) (hcs k (by simp [hk])) hr hr hp hkp).1
          exact hnd.1 (this ▸ hk)
        rw [decide_eq_true hp, decide_eq_false hno, decide_eq_true ⟨c, by simp, hb, hp⟩]
        simp
      · rw [decide_eq_false hp]
        simp [hp]
    · rw [if_neg hb]
      simp [hb]

/-- Row `r` of a sprite: whether it turns a lit pixel off. -/
theorem drawColumns_collided (wrap : Bool) (x0 y0 r : Nat) (b : Byte) (cs : List Nat) (d : Drawing) (hr : r < 32)
    (hcs : ∀ c ∈ cs, c < 8) (hnd : cs.Nodup) :
    (drawColumns wrap x0 (y0 + r) b cs d).collided = true ↔
      d.collided = true ∨ ∃ c ∈ cs, b.getLsbD (7 - c) = true ∧
        ∃ p, placePixel wrap (x0 + c) (y0 + r) = some p ∧ Frame.pixel d.fb p.1 p.2 = true := by
  induction cs generalizing d with
  | nil => simp [drawColumns]
  | cons c cs ih =>
    rw [List.nodup_cons] at hnd
    rw [drawColumns, ih _ (fun k hk => hcs k (by simp [hk])) hnd.2]
    by_cases hb : b.getLsbD (7 - c) = true
    · rw [if_pos hb, plotPixel_collided]
      have same : ∀ k ∈ cs, ∀ p, placePixel wrap (x0 + k) (y0 + r) = some p →
          Frame.pixel (plotPixel wrap (x0 + c) (y0 + r) d).fb p.1 p.2 = Frame.pixel d.fb p.1 p.2 := by
        intro k hk p hp
        obtain ⟨h1, h2⟩ := placePixel_onScreen (qx := p.1) (qy := p.2) hp
        rw [plotPixel_pixel _ _ _ _ _ _ h1 h2, decide_eq_false]
        · simp
        · intro hc
          have := (placePixel_inj (hcs c (by simp)) (hcs k (by simp [hk])) hr hr hc hp).1
          exact hnd.1 (this ▸ hk)
      constructor
      · rintro ((h | ⟨p, hp, hl⟩) | ⟨k, hk, hkb, p, hp, hl⟩)
        · exact .inl h
        · exact .inr ⟨c, by simp, hb, p, hp, hl⟩
        · exact .inr ⟨k, by simp [hk], hkb, p, hp, by rwa [same k hk p hp] at hl⟩
      · rintro (h | ⟨k, hk, hkb, p, hp, hl⟩)
        · exact .inl (.inl h)
        · rcases List.mem_cons.1 hk with rfl | hk
          · exact .inl (.inr ⟨p, hp, hl⟩)
          · exact .inr ⟨k, hk, hkb, p, hp, by rwa [same k hk p hp]⟩
    · rw [if_neg hb]
      simp [hb]

theorem mem_columns (c : Nat) : c ∈ [0, 1, 2, 3, 4, 5, 6, 7] ↔ c < 8 := by
  simp; omega

/-- The pixels a sprite inverts, each of them once; the others stay. Row `r` of `rows` is drawn at `y0 + (r0 + r)`. -/
theorem drawRows_pixel_from (wrap : Bool) (x0 y0 r0 : Nat) (rows : List Byte) (d : Drawing) (hr : r0 + rows.length ≤ 32)
    (qx qy : Nat) (hx : qx < 64) (hy : qy < 32) :
    ((∃ r < rows.length, ∃ c < 8, (rows.getD r 0).getLsbD (7 - c) = true ∧
        placePixel wrap (x0 + c) (y0 + (r0 + r)) = some (qx, qy)) →
      Frame.pixel (drawRows wrap x0 (y0 + r0) rows d).fb qx qy = !Frame.pixel d.fb qx qy) ∧
    ((¬ ∃ r < rows.length, ∃ c < 8, (rows.getD r 0).getLsbD (7 - c) = true ∧
        placePixel wrap (x0 + c) (y0 + (r0 + r)) = some (qx, qy)) →
      Frame.pixel (drawRows wrap x0 (y0 + r0) rows d).fb qx qy = Frame.pixel d.fb qx qy) := by
  induction rows generalizing d r0 with
  | nil => simp [drawRows]
  | cons b bs ih =>
    simp only [List.length_cons] at hr
    have hrow := drawColumns_pixel wrap x0 y0 r0 b [0, 1, 2, 3, 4, 5, 6, 7] d (by omega)
      (fun c hc => (mem_columns c).1 hc) (by decide) qx qy hx hy
    obtain ⟨ih1, ih0⟩ := ih (r0 + 1) (drawRow wrap x0 (y0 + r0) b d) (by omega)
    rw [show y0 + (r0 + 1) = y0 + r0 + 1 by omega] at ih1 ih0
    rw [drawRows]
    rw [drawRow] at ih1 ih0 ⊢
    have here : (∃ r < (b :: bs).length, ∃ c < 8, ((b :: bs).getD r 0).getLsbD (7 - c) = true ∧
        placePixel wrap (x0 + c) (y0 + (r0 + r)) = some (qx, qy)) ↔
        (∃ c ∈ [0, 1, 2, 3, 4, 5, 6, 7], b.getLsbD (7 - c) = true ∧ placePixel wrap (x0 + c) (y0 + r0) = some (qx, qy)) ∨
        (∃ r < bs.length, ∃ c < 8, (bs.getD r 0).getLsbD (7 - c) = true ∧
          placePixel wrap (x0 + c) (y0 + (r0 + 1 + r)) = some (qx, qy)) := by
      constructor
      · rintro ⟨r, hr, c, hc, hb, hp⟩
        cases r with
        | zero => exact .inl ⟨c, (mem_columns c).2 hc, by simpa using hb, by simpa using hp⟩
        | succ r =>
          exact .inr ⟨r, by simpa using hr, c, hc, by simpa using hb, by rw [show r0 + 1 + r = r0 + (r + 1) by omega]; exact hp⟩
      · rintro (⟨c, hc, hb, hp⟩ | ⟨r, hr, c, hc, hb, hp⟩)
        · exact ⟨0, by simp, c, (mem_columns c).1 hc, by simpa using hb, by simpa using hp⟩
        · exact ⟨r + 1, by simpa using hr, c, hc, by simpa using hb, by rw [show r0 + (r + 1) = r0 + 1 + r by omega]; exact hp⟩
    rw [here]
    by_cases hA : ∃ c ∈ [0, 1, 2, 3, 4, 5, 6, 7], b.getLsbD (7 - c) = true ∧
        placePixel wrap (x0 + c) (y0 + r0) = some (qx, qy)
    · have hB : ¬ ∃ r < bs.length, ∃ c < 8, (bs.getD r 0).getLsbD (7 - c) = true ∧
          placePixel wrap (x0 + c) (y0 + (r0 + 1 + r)) = some (qx, qy) := by
        obtain ⟨c, hc, -, hp⟩ := hA
        rintro ⟨r, hr', c', hc', -, hp'⟩
        have := (placePixel_inj ((mem_columns c).1 hc) hc' (by omega) (by omega) hp hp').2
        omega
      rw [decide_eq_true hA] at hrow
      exact ⟨fun _ => by rw [ih0 hB, hrow]; simp, fun h => absurd (.inl hA) h⟩
    · rw [decide_eq_false hA, Bool.xor_false] at hrow
      refine ⟨fun h => ?_, fun h => ?_⟩
      · rw [ih1 (h.resolve_left hA), hrow]
      · rw [ih0 (fun hB => h (.inr hB)), hrow]

/-- The pixels a sprite inverts, in two cases: those it covers, and the others. -/
theorem drawRows_pixel (wrap : Bool) (x0 y0 : Nat) (rows : List Byte) (d : Drawing) (hr : rows.length ≤ 32)
    (qx qy : Nat) (hx : qx < 64) (hy : qy < 32) :
    ((∃ r < rows.length, ∃ c < 8, (rows.getD r 0).getLsbD (7 - c) = true ∧
        placePixel wrap (x0 + c) (y0 + r) = some (qx, qy)) →
      Frame.pixel (drawRows wrap x0 y0 rows d).fb qx qy = !Frame.pixel d.fb qx qy) ∧
    ((¬ ∃ r < rows.length, ∃ c < 8, (rows.getD r 0).getLsbD (7 - c) = true ∧
        placePixel wrap (x0 + c) (y0 + r) = some (qx, qy)) →
      Frame.pixel (drawRows wrap x0 y0 rows d).fb qx qy = Frame.pixel d.fb qx qy) := by
  have h := drawRows_pixel_from wrap x0 y0 0 rows d (by omega) qx qy hx hy
  simpa only [Nat.zero_add, Nat.add_zero] using h

/-- Whether a sprite turns a lit pixel off. -/
theorem drawRows_collided (wrap : Bool) (x0 y0 r0 : Nat) (rows : List Byte) (d : Drawing) (hr : r0 + rows.length ≤ 32) :
    (drawRows wrap x0 (y0 + r0) rows d).collided = true ↔
      d.collided = true ∨ ∃ r < rows.length, ∃ c < 8, (rows.getD r 0).getLsbD (7 - c) = true ∧
        ∃ p, placePixel wrap (x0 + c) (y0 + (r0 + r)) = some p ∧ Frame.pixel d.fb p.1 p.2 = true := by
  induction rows generalizing d r0 with
  | nil => simp [drawRows]
  | cons b bs ih =>
    simp only [List.length_cons] at hr
    have hrow := drawColumns_collided wrap x0 y0 r0 b [0, 1, 2, 3, 4, 5, 6, 7] d (by omega)
      (fun c hc => (mem_columns c).1 hc) (by decide)
    have hpix := drawColumns_pixel wrap x0 y0 r0 b [0, 1, 2, 3, 4, 5, 6, 7] d (by omega)
      (fun c hc => (mem_columns c).1 hc) (by decide)
    have ih := ih (r0 + 1) (drawRow wrap x0 (y0 + r0) b d) (by omega)
    rw [show y0 + (r0 + 1) = y0 + r0 + 1 by omega] at ih
    have same : ∀ r < bs.length, ∀ c < 8, ∀ p, placePixel wrap (x0 + c) (y0 + (r0 + 1 + r)) = some p →
        Frame.pixel (drawRow wrap x0 (y0 + r0) b d).fb p.1 p.2 = Frame.pixel d.fb p.1 p.2 := by
      intro r hr' c hc p hp
      obtain ⟨h1, h2⟩ := placePixel_onScreen (qx := p.1) (qy := p.2) hp
      rw [drawRow, hpix p.1 p.2 h1 h2, decide_eq_false]
      · simp
      · rintro ⟨k, hk, -, hkp⟩
        have := (placePixel_inj ((mem_columns k).1 hk) hc (by omega) (by omega) hkp hp).2
        omega
    rw [drawRows, ih]
    rw [drawRow] at same ⊢
    rw [hrow]
    constructor
    · rintro ((h | ⟨c, hc, hb, p, hp, hl⟩) | ⟨r, hr', c, hc, hb, p, hp, hl⟩)
      · exact .inl h
      · exact .inr ⟨0, by simp, c, (mem_columns c).1 hc, by simpa using hb, p, by simpa using hp, hl⟩
      · rw [same r hr' c hc p hp] at hl
        exact .inr ⟨r + 1, by simpa using hr', c, hc, by simpa using hb, p,
          by rw [show r0 + (r + 1) = r0 + 1 + r by omega]; exact hp, hl⟩
    · rintro (h | ⟨r, hr', c, hc, hb, p, hp, hl⟩)
      · exact .inl (.inl h)
      · cases r with
        | zero => exact .inl (.inr ⟨c, (mem_columns c).2 hc, by simpa using hb, p, by simpa using hp, hl⟩)
        | succ r =>
          have hr'' : r < bs.length := by simpa using hr'
          have hp' : placePixel wrap (x0 + c) (y0 + (r0 + 1 + r)) = some p := by
            rw [show r0 + 1 + r = r0 + (r + 1) by omega]; exact hp
          exact .inr ⟨r, hr'', c, hc, by simpa using hb, p, hp', by rwa [same r hr'' c hc p hp']⟩

end Sys2Proof.Machine
end

