-- ==== Sys2Proof/Laws/Exec.lean ====
section
/-! SUPPORT. One equation per instruction: the next state `exec` answers, as named updates of the state, with the halted state
where the instruction raises a fatal condition. Later proofs cite these and do not unfold a meaning. -/

namespace Sys2Proof.Machine

variable (s : State) (x y : Reg) (nn : Byte) (nnn : Addr12)

/-! ### Control flow -/

/-- The call stack after a push; without effect on a full stack. -/
def State.pushed (s : State) : State :=
  if h : s.sp.val < 16 then s.setStack (s.stack.set s.sp.val s.pc h) ⟨s.sp.val + 1, by omega⟩ else s

/-- The call stack after a pop, and PC two past the popped entry; without effect on an empty stack. -/
def State.popped (s : State) : State :=
  if h : 0 < s.sp.val then
    (s.setStack s.stack ⟨s.sp.val - 1, by have := s.sp.isLt; omega⟩).setPc
      (s.stack[s.sp.val - 1]'(by have := s.sp.isLt; omega) + 2)
  else s

theorem exec_ret : exec .ret s = .next (if s.sp.val = 0 then s.halt .sun else s.popped) := by
  by_cases h : 0 < s.sp.val
  · simp [exec, execRet, popStack, State.popped, h, show s.sp.val ≠ 0 by omega]
  · simp [exec, execRet, popStack, show s.sp.val = 0 by omega]

theorem exec_jpNnn : exec (.jpNnn nnn) s = .next (s.setPc (zextAddress nnn)) := by
  have := nnn.isLt
  show jumpTo nnn.toNat s = _
  unfold jumpTo memSize
  rw [if_neg (by omega)]
  congr 2
  apply BitVec.eq_of_toNat_eq
  simp [zextAddress]

theorem exec_callNnn :
    exec (.callNnn nnn) s = .next (if s.sp.val = 16 then s.halt .sov else s.pushed.setPc (zextAddress nnn)) := by
  have := nnn.isLt
  show execCallNnn nnn s = _
  unfold execCallNnn addressOperand memSize
  rw [if_neg (by omega)]
  by_cases h : s.sp.val < 16
  · simp [pushPc, State.pushed, h, show s.sp.val ≠ 16 by omega]
  · have := s.sp.isLt
    simp [pushPc, show s.sp.val = 16 by omega]

theorem exec_jpV0Nnn :
    exec (.jpV0Nnn nnn) s =
      .next (if 4096 ≤ nnn.toNat + (s.reg 0).toNat then s.halt .aob
        else s.setPc (BitVec.ofNat 16 (nnn.toNat + (s.reg 0).toNat))) := by
  show jumpTo (nnn.toNat + (s.reg 0).toNat) s = _
  unfold jumpTo memSize
  split <;> rfl

theorem exec_seVxNn : exec (.seVxNn x nn) s = .next (s.setPc (if s.reg x == nn then s.pc + 4 else s.pc + 2)) := rfl
theorem exec_sneVxNn : exec (.sneVxNn x nn) s = .next (s.setPc (if s.reg x != nn then s.pc + 4 else s.pc + 2)) := rfl
theorem exec_seVxVy : exec (.seVxVy x y) s = .next (s.setPc (if s.reg x == s.reg y then s.pc + 4 else s.pc + 2)) := rfl
theorem exec_sneVxVy : exec (.sneVxVy x y) s = .next (s.setPc (if s.reg x != s.reg y then s.pc + 4 else s.pc + 2)) := rfl

/-! ### Register and ALU -/

theorem exec_ldVxNn : exec (.ldVxNn x nn) s = .next (s.writeReg x nn).advance := rfl
theorem exec_addVxNn : exec (.addVxNn x nn) s = .next (s.writeReg x (s.reg x + nn)).advance := rfl
theorem exec_ldVxVy : exec (.ldVxVy x y) s = .next (s.writeReg x (s.reg y)).advance := rfl
theorem exec_orVxVy : exec (.orVxVy x y) s = .next (s.writeReg x (s.reg x ||| s.reg y)).advance := rfl
theorem exec_andVxVy : exec (.andVxVy x y) s = .next (s.writeReg x (s.reg x &&& s.reg y)).advance := rfl
theorem exec_xorVxVy : exec (.xorVxVy x y) s = .next (s.writeReg x (s.reg x ^^^ s.reg y)).advance := rfl
theorem exec_addVxVy :
    exec (.addVxVy x y) s = .next (s.writeResultFlag x (s.reg x + s.reg y) (carryFlag (s.reg x) (s.reg y))).advance := rfl
theorem exec_subVxVy :
    exec (.subVxVy x y) s = .next (s.writeResultFlag x (s.reg x - s.reg y) (noBorrowFlag (s.reg x) (s.reg y))).advance := rfl
theorem exec_subnVxVy :
    exec (.subnVxVy x y) s = .next (s.writeResultFlag x (s.reg y - s.reg x) (noBorrowFlag (s.reg y) (s.reg x))).advance := rfl
theorem exec_shrVx :
    exec (.shrVx x y) s = .next (s.writeResultFlag x (s.reg x >>> 1) (lowBitFlag (s.reg x))).advance := rfl
theorem exec_shlVx :
    exec (.shlVx x y) s = .next (s.writeResultFlag x (s.reg x <<< 1) (highBitFlag (s.reg x))).advance := rfl
theorem exec_rndVxNn :
    exec (.rndVxNn x nn) s = .next (s.countDraw.writeReg x (Config.randomByte s.rndDraws &&& nn)).advance := rfl

/-! ### Display -/

theorem exec_cls : exec .cls s = .next (s.showFrame Frame.blank).advance := rfl

/-- What the sprite of DRW does to the frame buffer. -/
def State.sprite (s : State) (wrap : Bool) (x y : Reg) (n : Nibble) : Drawing :=
  drawRows wrap (s.reg x).toNat (s.reg y).toNat
    ((List.range n.toNat).map fun k => s.mem.read (indexAddress s + k)) { fb := s.fb, collided := false }

/-- The state after a sprite is drawn. -/
def State.drawn (s : State) (wrap : Bool) (x y : Reg) (n : Nibble) : State :=
  ((s.showFrame (s.sprite wrap x y n).fb).writeReg flagReg (collisionFlag (s.sprite wrap x y n).collided)).advance

theorem drawSprite_eq (wrap : Bool) (n : Nibble) :
    drawSprite wrap x y n s =
      .next (if inRange (indexAddress s) n.toNat then s.drawn wrap x y n else s.halt .aob) := by
  unfold drawSprite
  by_cases h : inRange (indexAddress s) n.toNat = true
  · simp [h, State.drawn, State.sprite]
  · simp at h; simp [h]

theorem exec_drwVxVyN (n : Nibble) :
    exec (.drwVxVyN x y n) s =
      .next (if inRange (indexAddress s) n.toNat then s.drawn false x y n else s.halt .aob) :=
  drawSprite_eq s x y false n

/-! ### Keys and timers -/

theorem exec_skpVx : exec (.skpVx x) s = .next (s.setPc (if keyDown x s then s.pc + 4 else s.pc + 2)) := rfl
theorem exec_sknpVx : exec (.sknpVx x) s = .next (s.setPc (if !keyDown x s then s.pc + 4 else s.pc + 2)) := rfl
theorem exec_ldVxDt : exec (.ldVxDt x) s = .next (s.writeReg x s.dt).advance := rfl
theorem exec_ldDtVx : exec (.ldDtVx x) s = .next (s.setDt (s.reg x)).advance := rfl
theorem exec_ldStVx : exec (.ldStVx x) s = .next (s.setSt (s.reg x)).advance := rfl
theorem exec_ldVxK : exec (.ldVxK x) s = .next (s.setWait true).advance := rfl

/-! ### Index register and memory -/

theorem exec_ldINnn : exec (.ldINnn nnn) s = .next (s.setI (zextAddress nnn)).advance := by
  have := nnn.isLt
  show execLdINnn nnn s = _
  unfold execLdINnn addressOperand memSize
  rw [if_neg (by omega)]

theorem exec_addIVx :
    exec (.addIVx x) s =
      .next ((s.setI (BitVec.ofNat 16 (s.i.toNat + (s.reg x).toNat))).writeReg flagReg
        (indexOverflowFlag s.i (s.reg x))).advance := rfl
theorem exec_ldFVx : exec (.ldFVx x) s = .next (s.setI (glyphAddress x s)).advance := rfl

theorem exec_ldBVx :
    exec (.ldBVx x) s =
      .next (if inRange (indexAddress s) 3 then
          (s.setMem (s.mem.writeBytes (indexAddress s) (decimalDigits (s.reg x)))).advance else s.halt .aob) := by
  by_cases h : inRange (indexAddress s) 3 = true
  · simp [exec, execLdBVx, writeBlock, decimalDigits, h]
  · simp at h; simp [exec, execLdBVx, writeBlock, decimalDigits, h]

theorem exec_ldMemVx :
    exec (.ldMemVx x) s =
      .next (if inRange (indexAddress s) (x.val + 1) then
          ((s.setMem (s.mem.writeBytes (indexAddress s) (regsUpTo x s))).stepIndex x).advance else s.halt .aob) := by
  by_cases h : inRange (indexAddress s) (x.val + 1) = true
  · simp [exec, execLdMemVx, writeBlock, regsUpTo_length, h]
  · simp at h; simp [exec, execLdMemVx, writeBlock, regsUpTo_length, h]

/-- The registers after a block load, as one update of the register file. -/
def State.blockLoaded (s : State) (x : Reg) : State :=
  loadRegs 0 ((List.range (x.val + 1)).map fun k => s.mem.read (indexAddress s + k)) s

theorem exec_ldVxMem :
    exec (.ldVxMem x) s =
      .next (if inRange (indexAddress s) (x.val + 1) then ((s.blockLoaded x).stepIndex x).advance else s.halt .aob) := by
  by_cases h : inRange (indexAddress s) (x.val + 1) = true
  · simp [exec, execLdVxMem, blockLength, State.blockLoaded, h]
  · simp at h; simp [exec, execLdVxMem, blockLength, h]

/-- A block load writes general registers and nothing else. -/
theorem blockLoaded_eq : s.blockLoaded x = { s with v := (s.blockLoaded x).v } := loadRegs_eq _ _ _

theorem blockLoaded_reg :
    (s.blockLoaded x).reg y = if y.val ≤ x.val then s.mem.read (indexAddress s + y.val) else s.reg y := by
  simp only [State.blockLoaded, loadRegs_reg, List.length_map, List.length_range]
  by_cases h : y.val ≤ x.val
  · rw [if_pos (by omega), if_pos h]
    simp [List.getD_eq_getElem?_getD, show y.val < x.val + 1 by omega]
  · rw [if_neg (by omega), if_neg h]

/-! ### The unknown instruction -/

theorem exec_unknownInstruction (op : Word) : exec (.unknownInstruction op) s = .next (s.halt .unk) := rfl

/-! ### The fields the compound updates leave alone -/

namespace State

variable (s : State)

@[simp] theorem pushed_v : (s.pushed).v = s.v := by
  unfold State.pushed; split <;> rfl
@[simp] theorem pushed_i : (s.pushed).i = s.i := by
  unfold State.pushed; split <;> rfl
@[simp] theorem pushed_pc : (s.pushed).pc = s.pc := by
  unfold State.pushed; split <;> rfl
@[simp] theorem pushed_dt : (s.pushed).dt = s.dt := by
  unfold State.pushed; split <;> rfl
@[simp] theorem pushed_st : (s.pushed).st = s.st := by
  unfold State.pushed; split <;> rfl
@[simp] theorem pushed_keys : (s.pushed).keys = s.keys := by
  unfold State.pushed; split <;> rfl
@[simp] theorem pushed_fb : (s.pushed).fb = s.fb := by
  unfold State.pushed; split <;> rfl
@[simp] theorem pushed_draw : (s.pushed).draw = s.draw := by
  unfold State.pushed; split <;> rfl
@[simp] theorem pushed_wait : (s.pushed).wait = s.wait := by
  unfold State.pushed; split <;> rfl
@[simp] theorem pushed_opcode : (s.pushed).opcode = s.opcode := by
  unfold State.pushed; split <;> rfl
@[simp] theorem pushed_running : (s.pushed).running = s.running := by
  unfold State.pushed; split <;> rfl
@[simp] theorem pushed_err : (s.pushed).err = s.err := by
  unfold State.pushed; split <;> rfl
@[simp] theorem pushed_mem : (s.pushed).mem = s.mem := by
  unfold State.pushed; split <;> rfl
@[simp] theorem pushed_rndDraws : (s.pushed).rndDraws = s.rndDraws := by
  unfold State.pushed; split <;> rfl
@[simp] theorem popped_v : (s.popped).v = s.v := by
  unfold State.popped; split <;> rfl
@[simp] theorem popped_i : (s.popped).i = s.i := by
  unfold State.popped; split <;> rfl
@[simp] theorem popped_stack : (s.popped).stack = s.stack := by
  unfold State.popped; split <;> rfl
@[simp] theorem popped_dt : (s.popped).dt = s.dt := by
  unfold State.popped; split <;> rfl
@[simp] theorem popped_st : (s.popped).st = s.st := by
  unfold State.popped; split <;> rfl
@[simp] theorem popped_keys : (s.popped).keys = s.keys := by
  unfold State.popped; split <;> rfl
@[simp] theorem popped_fb : (s.popped).fb = s.fb := by
  unfold State.popped; split <;> rfl
@[simp] theorem popped_draw : (s.popped).draw = s.draw := by
  unfold State.popped; split <;> rfl
@[simp] theorem popped_wait : (s.popped).wait = s.wait := by
  unfold State.popped; split <;> rfl
@[simp] theorem popped_opcode : (s.popped).opcode = s.opcode := by
  unfold State.popped; split <;> rfl
@[simp] theorem popped_running : (s.popped).running = s.running := by
  unfold State.popped; split <;> rfl
@[simp] theorem popped_err : (s.popped).err = s.err := by
  unfold State.popped; split <;> rfl
@[simp] theorem popped_mem : (s.popped).mem = s.mem := by
  unfold State.popped; split <;> rfl
@[simp] theorem popped_rndDraws : (s.popped).rndDraws = s.rndDraws := by
  unfold State.popped; split <;> rfl
@[simp] theorem drawn_i (w : Bool) (x y : Reg) (n : Nibble) : (s.drawn w x y n).i = s.i := by
  rfl
@[simp] theorem drawn_sp (w : Bool) (x y : Reg) (n : Nibble) : (s.drawn w x y n).sp = s.sp := by
  rfl
@[simp] theorem drawn_stack (w : Bool) (x y : Reg) (n : Nibble) : (s.drawn w x y n).stack = s.stack := by
  rfl
@[simp] theorem drawn_dt (w : Bool) (x y : Reg) (n : Nibble) : (s.drawn w x y n).dt = s.dt := by
  rfl
@[simp] theorem drawn_st (w : Bool) (x y : Reg) (n : Nibble) : (s.drawn w x y n).st = s.st := by
  rfl
@[simp] theorem drawn_keys (w : Bool) (x y : Reg) (n : Nibble) : (s.drawn w x y n).keys = s.keys := by
  rfl
@[simp] theorem drawn_wait (w : Bool) (x y : Reg) (n : Nibble) : (s.drawn w x y n).wait = s.wait := by
  rfl
@[simp] theorem drawn_opcode (w : Bool) (x y : Reg) (n : Nibble) : (s.drawn w x y n).opcode = s.opcode := by
  rfl
@[simp] theorem drawn_running (w : Bool) (x y : Reg) (n : Nibble) : (s.drawn w x y n).running = s.running := by
  rfl
@[simp] theorem drawn_err (w : Bool) (x y : Reg) (n : Nibble) : (s.drawn w x y n).err = s.err := by
  rfl
@[simp] theorem drawn_mem (w : Bool) (x y : Reg) (n : Nibble) : (s.drawn w x y n).mem = s.mem := by
  rfl
@[simp] theorem drawn_rndDraws (w : Bool) (x y : Reg) (n : Nibble) : (s.drawn w x y n).rndDraws = s.rndDraws := by
  rfl
@[simp] theorem blockLoaded_i (x : Reg) : (s.blockLoaded x).i = s.i := by
  rw [blockLoaded_eq]
@[simp] theorem blockLoaded_pc (x : Reg) : (s.blockLoaded x).pc = s.pc := by
  rw [blockLoaded_eq]
@[simp] theorem blockLoaded_sp (x : Reg) : (s.blockLoaded x).sp = s.sp := by
  rw [blockLoaded_eq]
@[simp] theorem blockLoaded_stack (x : Reg) : (s.blockLoaded x).stack = s.stack := by
  rw [blockLoaded_eq]
@[simp] theorem blockLoaded_dt (x : Reg) : (s.blockLoaded x).dt = s.dt := by
  rw [blockLoaded_eq]
@[simp] theorem blockLoaded_st (x : Reg) : (s.blockLoaded x).st = s.st := by
  rw [blockLoaded_eq]
@[simp] theorem blockLoaded_keys (x : Reg) : (s.blockLoaded x).keys = s.keys := by
  rw [blockLoaded_eq]
@[simp] theorem blockLoaded_fb (x : Reg) : (s.blockLoaded x).fb = s.fb := by
  rw [blockLoaded_eq]
@[simp] theorem blockLoaded_draw (x : Reg) : (s.blockLoaded x).draw = s.draw := by
  rw [blockLoaded_eq]
@[simp] theorem blockLoaded_wait (x : Reg) : (s.blockLoaded x).wait = s.wait := by
  rw [blockLoaded_eq]
@[simp] theorem blockLoaded_opcode (x : Reg) : (s.blockLoaded x).opcode = s.opcode := by
  rw [blockLoaded_eq]
@[simp] theorem blockLoaded_running (x : Reg) : (s.blockLoaded x).running = s.running := by
  rw [blockLoaded_eq]
@[simp] theorem blockLoaded_err (x : Reg) : (s.blockLoaded x).err = s.err := by
  rw [blockLoaded_eq]
@[simp] theorem blockLoaded_mem (x : Reg) : (s.blockLoaded x).mem = s.mem := by
  rw [blockLoaded_eq]
@[simp] theorem blockLoaded_rndDraws (x : Reg) : (s.blockLoaded x).rndDraws = s.rndDraws := by
  rw [blockLoaded_eq]

/-! ### The registers after the compound updates -/

@[simp] theorem pushed_reg (y : Reg) : (s.pushed).reg y = s.reg y := by
  simp [State.reg]
@[simp] theorem popped_reg (y : Reg) : (s.popped).reg y = s.reg y := by
  simp [State.reg]
@[simp] theorem drawn_reg (w : Bool) (x y : Reg) (n : Nibble) (k : Reg) :
    (s.drawn w x y n).reg k = if k = flagReg then collisionFlag (s.sprite w x y n).collided else s.reg k := by
  simp [State.drawn]

@[simp] theorem drawn_draw (w : Bool) (x y : Reg) (n : Nibble) : (s.drawn w x y n).draw = true := rfl
@[simp] theorem drawn_pc (w : Bool) (x y : Reg) (n : Nibble) : (s.drawn w x y n).pc = s.pc + 2 := rfl
@[simp] theorem drawn_fb (w : Bool) (x y : Reg) (n : Nibble) : (s.drawn w x y n).fb = (s.sprite w x y n).fb := rfl

end State

/-! ### What a step can do -/

/-- A step does nothing, halts on a fetch outside memory, or executes the fetched word in the state that has latched it. -/
theorem step_cases {s t : State} (h : step s = .next t) :
    (s.active = false ∧ t = s) ∨
    (s.active = true ∧ 0xFFE < s.pc.toNat ∧ t = s.halt .aob) ∨
    (s.active = true ∧ s.pc.toNat ≤ 0xFFE ∧
      exec (decodeWord (joinBytes (s.mem.read s.pc.toNat) (s.mem.read (s.pc.toNat + 1))))
        (s.latchOpcode (joinBytes (s.mem.read s.pc.toNat) (s.mem.read (s.pc.toNat + 1)))) = .next t) := by
  unfold step at h
  rw [fetchWord_eq] at h
  by_cases ha : s.active = true
  · by_cases hp : s.pc.toNat ≤ 0xFFE
    · rw [if_pos ha, if_pos hp] at h
      exact .inr (.inr ⟨ha, hp, h⟩)
    · rw [if_pos ha, if_neg hp, raiseFatal_eq, Host.Outcome.next.injEq] at h
      exact .inr (.inl ⟨ha, by omega, h.symm⟩)
  · rw [if_neg ha, Host.Outcome.next.injEq] at h
    exact .inl ⟨by simpa using ha, h.symm⟩

/-- What an instruction can do to memory: nothing, or a store of bytes from I up that ends inside memory. -/
theorem exec_mem_cases {i : Instr} {s t : State} (h : exec i s = .next t) :
    t.mem = s.mem ∨
    ∃ bs : List Byte, indexAddress s + bs.length ≤ memSize ∧ t.mem = s.mem.writeBytes (indexAddress s) bs := by
  cases i <;>
    simp only [exec_cls, exec_ret, exec_jpNnn, exec_callNnn, exec_seVxNn, exec_sneVxNn, exec_seVxVy, exec_sneVxVy,
      exec_ldVxNn, exec_addVxNn, exec_ldVxVy, exec_orVxVy, exec_andVxVy, exec_xorVxVy, exec_addVxVy, exec_subVxVy,
      exec_subnVxVy, exec_shrVx, exec_shlVx, exec_rndVxNn, exec_drwVxVyN, exec_skpVx, exec_sknpVx, exec_ldVxDt,
      exec_ldDtVx, exec_ldStVx, exec_ldVxK, exec_ldINnn, exec_addIVx, exec_ldFVx, exec_ldBVx, exec_ldMemVx,
      exec_ldVxMem, exec_unknownInstruction, exec_jpV0Nnn, Host.Outcome.next.injEq] at h <;>
    subst h
  case ldBVx x =>
    by_cases hr : inRange (indexAddress s) 3 = true
    · rw [if_pos hr]
      have := (inRange_iff _ _).1 hr
      exact .inr ⟨_, by simp only [decimalDigits, List.length_cons, List.length_nil]; omega, rfl⟩
    · rw [if_neg hr]
      exact .inl rfl
  case ldMemVx x =>
    by_cases hr : inRange (indexAddress s) (x.val + 1) = true
    · rw [if_pos hr]
      have := (inRange_iff _ _).1 hr
      exact .inr ⟨_, by rw [regsUpTo_length]; omega, rfl⟩
    · rw [if_neg hr]
      exact .inl rfl
  all_goals
    left
    first
      | rfl
      | (split <;> simp)

/-- Every instruction keeps memory in its canonical form. -/
theorem exec_mem_wf {i : Instr} {s t : State} (h : exec i s = .next t) (hw : s.mem.wf) : t.mem.wf := by
  rcases exec_mem_cases h with hm | ⟨bs, hb, hm⟩
  · rw [hm]
    exact hw
  · rw [hm]
    exact Memory.writeBytes_wf _ _ _ hw hb

end Sys2Proof.Machine
end

