-- ==== Sys2Proof/Laws/PerInstr.lean ====
section
/-! SUPPORT. One lemma per constructor: the encoder's word passes the masks of the instruction's row of the opcode map
(30_encoding.md R75). -/

namespace Sys2Proof.Laws.EncodesItsRow

/-- The word of `i` matches the row of `i`, under the decoder's mask and under the canonical one. -/
def Statement (i : Instr) : Prop :=
  ∀ r, opcodeRow i = some r → encode i &&& r.mask = r.bits ∧ encode i &&& r.canonicalMask = r.canonicalBits

theorem cls : Statement (.cls) := by
  intro r h
  cases h
  decide

theorem ret : Statement (.ret) := by
  intro r h
  cases h
  decide

theorem jpNnn (nnn : Addr12) : Statement (.jpNnn nnn) := by
  intro r h
  cases h
  simp only [encode, mask_F000, fieldG_formatA]
  decide

theorem callNnn (nnn : Addr12) : Statement (.callNnn nnn) := by
  intro r h
  cases h
  simp only [encode, mask_F000, fieldG_formatA]
  decide

theorem seVxNn (x : Reg) (nn : Byte) : Statement (.seVxNn x nn) := by
  intro r h
  cases h
  simp only [encode, mask_F000, fieldG_formatXB]
  decide

theorem sneVxNn (x : Reg) (nn : Byte) : Statement (.sneVxNn x nn) := by
  intro r h
  cases h
  simp only [encode, mask_F000, fieldG_formatXB]
  decide

theorem seVxVy (x y : Reg) : Statement (.seVxVy x y) := by
  intro r h
  cases h
  simp only [encode, mask_F000, mask_F00F, fieldG_nibbles, fieldN_nibbles]
  decide

theorem ldVxNn (x : Reg) (nn : Byte) : Statement (.ldVxNn x nn) := by
  intro r h
  cases h
  simp only [encode, mask_F000, fieldG_formatXB]
  decide

theorem addVxNn (x : Reg) (nn : Byte) : Statement (.addVxNn x nn) := by
  intro r h
  cases h
  simp only [encode, mask_F000, fieldG_formatXB]
  decide

theorem ldVxVy (x y : Reg) : Statement (.ldVxVy x y) := by
  intro r h
  cases h
  simp only [encode, mask_F00F, fieldG_nibbles, fieldN_nibbles]
  decide

theorem orVxVy (x y : Reg) : Statement (.orVxVy x y) := by
  intro r h
  cases h
  simp only [encode, mask_F00F, fieldG_nibbles, fieldN_nibbles]
  decide

theorem andVxVy (x y : Reg) : Statement (.andVxVy x y) := by
  intro r h
  cases h
  simp only [encode, mask_F00F, fieldG_nibbles, fieldN_nibbles]
  decide

theorem xorVxVy (x y : Reg) : Statement (.xorVxVy x y) := by
  intro r h
  cases h
  simp only [encode, mask_F00F, fieldG_nibbles, fieldN_nibbles]
  decide

theorem addVxVy (x y : Reg) : Statement (.addVxVy x y) := by
  intro r h
  cases h
  simp only [encode, mask_F00F, fieldG_nibbles, fieldN_nibbles]
  decide

theorem subVxVy (x y : Reg) : Statement (.subVxVy x y) := by
  intro r h
  cases h
  simp only [encode, mask_F00F, fieldG_nibbles, fieldN_nibbles]
  decide

theorem shrVx (x y : Reg) : Statement (.shrVx x y) := by
  intro r h
  cases h
  simp only [encode, mask_F00F, fieldG_nibbles, fieldN_nibbles]
  decide

theorem subnVxVy (x y : Reg) : Statement (.subnVxVy x y) := by
  intro r h
  cases h
  simp only [encode, mask_F00F, fieldG_nibbles, fieldN_nibbles]
  decide

theorem shlVx (x y : Reg) : Statement (.shlVx x y) := by
  intro r h
  cases h
  simp only [encode, mask_F00F, fieldG_nibbles, fieldN_nibbles]
  decide

theorem sneVxVy (x y : Reg) : Statement (.sneVxVy x y) := by
  intro r h
  cases h
  simp only [encode, mask_F000, mask_F00F, fieldG_nibbles, fieldN_nibbles]
  decide

theorem ldINnn (nnn : Addr12) : Statement (.ldINnn nnn) := by
  intro r h
  cases h
  simp only [encode, mask_F000, fieldG_formatA]
  decide

theorem jpV0Nnn (nnn : Addr12) : Statement (.jpV0Nnn nnn) := by
  intro r h
  cases h
  simp only [encode, mask_F000, fieldG_formatA]
  decide

theorem rndVxNn (x : Reg) (nn : Byte) : Statement (.rndVxNn x nn) := by
  intro r h
  cases h
  simp only [encode, mask_F000, fieldG_formatXB]
  decide

theorem drwVxVyN (x y : Reg) (n : Nibble) : Statement (.drwVxVyN x y n) := by
  intro r h
  cases h
  simp only [encode, mask_F000, fieldG_nibbles]
  decide

theorem skpVx (x : Reg) : Statement (.skpVx x) := by
  intro r h
  cases h
  simp only [encode, mask_F00F, mask_F0FF, fieldG_formatXB, fieldNN_formatXB, fieldN_formatXB_eq]
  decide

theorem sknpVx (x : Reg) : Statement (.sknpVx x) := by
  intro r h
  cases h
  simp only [encode, mask_F00F, mask_F0FF, fieldG_formatXB, fieldNN_formatXB, fieldN_formatXB_eq]
  decide

theorem ldVxDt (x : Reg) : Statement (.ldVxDt x) := by
  intro r h
  cases h
  simp only [encode, mask_F00F, mask_F0FF, fieldG_formatXB, fieldNN_formatXB, fieldN_formatXB_eq]
  decide

theorem ldVxK (x : Reg) : Statement (.ldVxK x) := by
  intro r h
  cases h
  simp only [encode, mask_F00F, mask_F0FF, fieldG_formatXB, fieldNN_formatXB, fieldN_formatXB_eq]
  decide

theorem ldDtVx (x : Reg) : Statement (.ldDtVx x) := by
  intro r h
  cases h
  simp only [encode, mask_F0FF, fieldG_formatXB, fieldNN_formatXB]
  decide

theorem ldStVx (x : Reg) : Statement (.ldStVx x) := by
  intro r h
  cases h
  simp only [encode, mask_F00F, mask_F0FF, fieldG_formatXB, fieldNN_formatXB, fieldN_formatXB_eq]
  decide

theorem addIVx (x : Reg) : Statement (.addIVx x) := by
  intro r h
  cases h
  simp only [encode, mask_F00F, mask_F0FF, fieldG_formatXB, fieldNN_formatXB, fieldN_formatXB_eq]
  decide

theorem ldFVx (x : Reg) : Statement (.ldFVx x) := by
  intro r h
  cases h
  simp only [encode, mask_F00F, mask_F0FF, fieldG_formatXB, fieldNN_formatXB, fieldN_formatXB_eq]
  decide

theorem ldBVx (x : Reg) : Statement (.ldBVx x) := by
  intro r h
  cases h
  simp only [encode, mask_F00F, mask_F0FF, fieldG_formatXB, fieldNN_formatXB, fieldN_formatXB_eq]
  decide

theorem ldMemVx (x : Reg) : Statement (.ldMemVx x) := by
  intro r h
  cases h
  simp only [encode, mask_F0FF, fieldG_formatXB, fieldNN_formatXB]
  decide

theorem ldVxMem (x : Reg) : Statement (.ldVxMem x) := by
  intro r h
  cases h
  simp only [encode, mask_F0FF, fieldG_formatXB, fieldNN_formatXB]
  decide

theorem unknownInstruction (op : Word) : Statement (.unknownInstruction op) := by
  intro r h
  cases h

end Sys2Proof.Laws.EncodesItsRow
end

