-- ==== Sys2Proof/Laws/Sprite.lean ====
section
/-! SUPPORT. The pixels that the laws of drawing name, `placePixel` of a set bit of a row, are those of `spriteCovers` and of
`spriteFoldsOnto`. -/

namespace Sys2Proof.Machine

variable (s : State) (x y : Reg) (n : Nibble)

/-- The bytes of the sprite of DRW, from I up. -/
def State.spriteRows : List Byte := (List.range n.toNat).map fun k => s.mem.read (indexAddress s + k)

theorem State.spriteRows_length : (s.spriteRows n).length = n.toNat := by simp [State.spriteRows]

theorem State.spriteRows_getD {r : Nat} (h : r < n.toNat) : (s.spriteRows n).getD r 0 = s.mem.read (s.i.toNat + r) := by
  simp [State.spriteRows, List.getD_eq_getElem?_getD, h, indexAddress]

theorem State.sprite_eq (wrap : Bool) :
    s.sprite wrap x y n =
      drawRows wrap (s.reg x).toNat (s.reg y).toNat (s.spriteRows n) { fb := s.fb, collided := false } := rfl

/-- The pixels a clipped sprite covers. -/
theorem spriteCovers_iff_placePixel {px py : Nat} (hx : px < 64) (hy : py < 32) :
    spriteCovers x y n s px py ↔
      ∃ r < (s.spriteRows n).length, ∃ c < 8, ((s.spriteRows n).getD r 0).getLsbD (7 - c) = true ∧
        placePixel false ((s.reg x).toNat + c) ((s.reg y).toNat + r) = some (px, py) := by
  rw [State.spriteRows_length]
  constructor
  · rintro ⟨r, c, hr, hc, hpx, hpy, hb⟩
    refine ⟨r, hr, c, hc, by rwa [State.spriteRows_getD s n hr], ?_⟩
    exact (placePixel_eq_some ..).2 (.inr ⟨rfl, by omega, by omega, hpx.symm, hpy.symm⟩)
  · rintro ⟨r, hr, c, hc, hb, hp⟩
    rw [State.spriteRows_getD s n hr] at hb
    simp only [placePixel_eq_some, Bool.false_eq_true, false_and, true_and, false_or] at hp
    exact ⟨r, c, hr, hc, hp.2.2.1.symm, hp.2.2.2.symm, hb⟩

/-- The pixels a wrapped sprite folds onto. -/
theorem spriteFoldsOnto_iff_placePixel {px py : Nat} :
    spriteFoldsOnto x y n s px py ↔
      ∃ r < (s.spriteRows n).length, ∃ c < 8, ((s.spriteRows n).getD r 0).getLsbD (7 - c) = true ∧
        placePixel true ((s.reg x).toNat + c) ((s.reg y).toNat + r) = some (px, py) := by
  rw [State.spriteRows_length]
  constructor
  · rintro ⟨r, c, hr, hc, hpx, hpy, hb⟩
    exact ⟨r, hr, c, hc, by rwa [State.spriteRows_getD s n hr], by simp [placePixel, fbWidth, fbHeight, hpx, hpy]⟩
  · rintro ⟨r, hr, c, hc, hb, hp⟩
    rw [State.spriteRows_getD s n hr] at hb
    simp only [placePixel, fbWidth, fbHeight, if_true, Option.some.injEq, Prod.mk.injEq] at hp
    exact ⟨r, c, hr, hc, hp.1.symm, hp.2.symm, hb⟩

end Sys2Proof.Machine
end

