-- ==== Sys2Proof/Tests/Slice0.lean ====
section
/-! SUPPORT. The model's own tests. Expected values are those of spec/95_test_vectors.md (its ids stand in the comments: T, A,
G, K, M, H, E, P) and of the encodings of 30_encoding.md. After them, one witness per hypothesis of the statements in
Certificates/Slice0/Obligations.lean, named witness_<statement>. -/

namespace Sys2Proof.Tests.Slice0

open Sys2Proof Sys2Proof.Machine

/-- The state after a Load of the two bytes of `w`: the spec's "fresh" state with `w` at 0x200. -/
def loaded (w : Nat) : State := Machine.load (tableWordBytes 16 w) State.reset

/-- The fresh state with some registers set. -/
def withRegs (w : Nat) (rs : List (Reg × Byte)) : State := rs.foldl (fun s r => s.writeReg r.1 r.2) (loaded w)

/-- The state an operation answers; a stop leaves the state it started from. -/
def stateOf (s : State) : Result → State
  | .next t               => t
  | .fault _ | .refused _ => s

/-- The values of some elements after one Step. -/
def afterStep (s : State) (es : List Element) : List Nat := es.map fun e => observe e (stateOf s (Machine.step s))

/-- The values of some elements after a host operation. -/
def afterOp (op : HostOp) (s : State) (es : List Element) : List Nat := es.map fun e => observe e (stateOf s (op.apply s))

/-- A frame buffer with the listed pixels lit. -/
def lit (ps : List (Nat × Nat)) : Frame := ps.foldl (fun fb p => Frame.flip fb p.1 p.2) Frame.blank

/-! ### Well-formedness -/

/-- The one check refuses a word that is an instruction (R76). -/
theorem test_wellFormed_refuses_known_word : (Instr.unknownInstruction 0x00E0).wellFormed = false := by decide
theorem test_wellFormed_refuses_known_block_load : (Instr.unknownInstruction 0xF265).wellFormed = false := by decide
theorem test_wellFormed_accepts_unknown_word : (Instr.unknownInstruction 0xFFFF).wellFormed = true := by decide
/-- 0x512F is SE V1,V2 unless STRICT_DECODE (R74, R78). -/
theorem test_wellFormed_strict : (Instr.unknownInstruction 0x512F).wellFormedWith true = true ∧
    (Instr.unknownInstruction 0x512F).wellFormedWith false = false := by decide

/-! ### Decoding: for every constructor a word written out from its pattern (R75), by its four digits -/

theorem test_decode_cls : decode [0x00, 0xE0] = .ok (.cls, []) := by decide
theorem test_decode_ret : decode [0x00, 0xEE] = .ok (.ret, []) := by decide
theorem test_decode_jpNnn : decode [0x1A, 0xBC] = .ok (.jpNnn 0xABC, []) := by decide
theorem test_decode_callNnn : decode [0x2F, 0x01] = .ok (.callNnn 0xF01, []) := by decide
theorem test_decode_seVxNn : decode [0x31, 0x42] = .ok (.seVxNn 1 0x42, []) := by decide
theorem test_decode_sneVxNn : decode [0x4E, 0x07] = .ok (.sneVxNn 0xE 0x07, []) := by decide
theorem test_decode_seVxVy : decode [0x51, 0x20] = .ok (.seVxVy 1 2, []) := by decide
theorem test_decode_ldVxNn : decode [0x63, 0xAB] = .ok (.ldVxNn 3 0xAB, []) := by decide
theorem test_decode_addVxNn : decode [0x73, 0x02] = .ok (.addVxNn 3 0x02, []) := by decide
theorem test_decode_ldVxVy : decode [0x81, 0x20] = .ok (.ldVxVy 1 2, []) := by decide
theorem test_decode_orVxVy : decode [0x83, 0x41] = .ok (.orVxVy 3 4, []) := by decide
theorem test_decode_andVxVy : decode [0x85, 0x62] = .ok (.andVxVy 5 6, []) := by decide
theorem test_decode_xorVxVy : decode [0x87, 0x83] = .ok (.xorVxVy 7 8, []) := by decide
theorem test_decode_addVxVy : decode [0x89, 0xA4] = .ok (.addVxVy 9 0xA, []) := by decide
theorem test_decode_subVxVy : decode [0x8B, 0xC5] = .ok (.subVxVy 0xB 0xC, []) := by decide
theorem test_decode_shrVx : decode [0x8D, 0xE6] = .ok (.shrVx 0xD 0xE, []) := by decide
theorem test_decode_subnVxVy : decode [0x8F, 0x07] = .ok (.subnVxVy 0xF 0, []) := by decide
theorem test_decode_shlVx : decode [0x81, 0x2E] = .ok (.shlVx 1 2, []) := by decide
theorem test_decode_sneVxVy : decode [0x93, 0x40] = .ok (.sneVxVy 3 4, []) := by decide
theorem test_decode_ldINnn : decode [0xA3, 0x00] = .ok (.ldINnn 0x300, []) := by decide
theorem test_decode_jpV0Nnn : decode [0xB1, 0x23] = .ok (.jpV0Nnn 0x123, []) := by decide
theorem test_decode_rndVxNn : decode [0xC1, 0x0F] = .ok (.rndVxNn 1 0x0F, []) := by decide
theorem test_decode_drwVxVyN : decode [0xD0, 0x1F] = .ok (.drwVxVyN 0 1 0xF, []) := by decide
theorem test_decode_skpVx : decode [0xE2, 0x9E] = .ok (.skpVx 2, []) := by decide
theorem test_decode_sknpVx : decode [0xE3, 0xA1] = .ok (.sknpVx 3, []) := by decide
theorem test_decode_ldVxDt : decode [0xF4, 0x07] = .ok (.ldVxDt 4, []) := by decide
theorem test_decode_ldVxK : decode [0xF3, 0x0A] = .ok (.ldVxK 3, []) := by decide
theorem test_decode_ldDtVx : decode [0xF5, 0x15] = .ok (.ldDtVx 5, []) := by decide
theorem test_decode_ldStVx : decode [0xF6, 0x18] = .ok (.ldStVx 6, []) := by decide
theorem test_decode_addIVx : decode [0xF2, 0x1E] = .ok (.addIVx 2, []) := by decide
theorem test_decode_ldFVx : decode [0xFA, 0x29] = .ok (.ldFVx 0xA, []) := by decide
theorem test_decode_ldBVx : decode [0xF0, 0x33] = .ok (.ldBVx 0, []) := by decide
theorem test_decode_ldMemVx : decode [0xF2, 0x55] = .ok (.ldMemVx 2, []) := by decide
theorem test_decode_ldVxMem : decode [0xF3, 0x65] = .ok (.ldVxMem 3, []) := by decide
theorem test_decode_unknownInstruction : decode [0x81, 0x28] = .ok (.unknownInstruction 0x8128, []) := by decide

/-- Don't-care bits (R74) and the absent SYS instruction (R77): T12, T20, T24, K4, G2. -/
theorem test_decode_dont_care : decodeWord 0x0FFE = .ret ∧ decodeWord 0x512F = .seVxVy 1 2 ∧ decodeWord 0xE20E = .skpVx 2 ∧
    decodeWord 0x0000 = .cls ∧ decodeWord 0x0123 = .unknownInstruction 0x0123 := by decide
/-- R78. -/
theorem test_decode_strict : decodeWordWith true 0x512F = .unknownInstruction 0x512F ∧ decodeWordWith true 0x5120 = .seVxVy 1 2 := by
  decide
/-- K7, K12, A28, E6: one word of each illegal pattern (R76). -/
theorem test_decode_illegal : [0x0123, 0x8128, 0xE2A0, 0xF325, 0xFFFF].all
    (fun w => decodeTableWord 16 w == some (.unknownInstruction (BitVec.ofNat 16 w))) = true := by decide
theorem test_decode_truncated : decode [0x12] = .error .truncated := by decide
theorem test_decode_leaves_the_rest : decode [0x12, 0x34, 0x56] = .ok (.jpNnn 0x234, [0x56]) := by decide

/-- R80's examples. -/
theorem test_assemble : assembleLine ⟨.se, [.reg 1, .reg 2]⟩ = some [0x51, 0x20] ∧ assembleLine ⟨.skp, [.reg 3]⟩ = some [0xE3, 0x9E] ∧
    assembleLine ⟨.cls, []⟩ = some [0x00, 0xE0] ∧ assembleLine ⟨.db, [.byte 0x12]⟩ = some [0x12] := by decide
/-- R79: SHR Vx emits y as 0, and a second operand fills the field. -/
theorem test_assemble_shr : assembleLine ⟨.shr, [.reg 1]⟩ = some [0x81, 0x06] ∧
    assembleLine ⟨.shr, [.reg 1, .reg 2]⟩ = some [0x81, 0x26] := by decide
/-- Lines that name no instruction. -/
theorem test_assemble_refuses : assembleLine ⟨.jp, [.reg 1, .address 0]⟩ = none ∧ assembleLine ⟨.cls, [.key]⟩ = none ∧
    assembleLine ⟨.db, [.indexReg]⟩ = none := by decide

/-! ### Control flow -/

/-- T1 -/
theorem test_jp : afterStep (loaded 0x1ABC) [.pc, .opcode, .running] = [0xABC, 0x1ABC, 1] := by decide
/-- T2 -/
theorem test_jp_self : afterStep (loaded 0x1200) [.pc, .running] = [0x200, 1] := by decide
/-- T6 -/
theorem test_jpV0 : afterStep (withRegs 0xBF00 [(0, 0xFF)]) [.pc, .running] = [0xFFF, 1] := by decide
/-- T7 -/
theorem test_jpV0_out_of_bounds : afterStep (withRegs 0xBFFF [(0, 0x01)]) [.pc, .running, .err] = [0x200, 0, 5] := by decide
/-- T8 -/
theorem test_call : afterStep (loaded 0x2ABC) [.pc, .sp, .stack 0, .running] = [0xABC, 1, 0x200, 1] := by decide
/-- T9 -/
theorem test_call_overflow :
    afterStep { loaded 0x2ABC with stack := Vector.replicate 16 0x300, sp := 16 } [.pc, .sp, .stack 15, .running, .err] =
      [0x200, 16, 0x300, 0, 2] := by decide
/-- T10 -/
theorem test_ret :
    afterStep { loaded 0x00EE with stack := (Vector.replicate 16 0).set 0 0x2F0, sp := 1 } [.pc, .sp, .stack 0, .running] =
      [0x2F2, 0, 0x2F0, 1] := by decide
/-- T11 -/
theorem test_ret_underflow : afterStep (loaded 0x00EE) [.pc, .sp, .running, .err] = [0x200, 0, 0, 3] := by decide
/-- T13 -/
theorem test_seVxNn : afterStep (withRegs 0x3142 [(1, 0x42)]) [.pc] = [0x204] := by decide
/-- T23, with the word of T13 placed at 0xFFC -/
theorem test_seVxNn_end_of_memory :
    afterStep { withRegs 0x3142 [(1, 0x42)] with pc := 0xFFC, mem := [(0xFFC, 0x31), (0xFFD, 0x42)] } [.pc, .running] =
      [0x1000, 1] := by decide
/-- T15 -/
theorem test_sneVxNn : afterStep (withRegs 0x4142 [(1, 0x42)]) [.pc] = [0x202] := by decide
/-- T16 -/
theorem test_sneVxNn_skips : afterStep (withRegs 0x4142 [(1, 0x41)]) [.pc] = [0x204] := by decide
/-- T18 -/
theorem test_seVxVy : afterStep (withRegs 0x5120 [(1, 0x07), (2, 0x08)]) [.pc] = [0x202] := by decide
/-- T20 -/
theorem test_seVxVy_low_nibble_ignored : afterStep (withRegs 0x512F [(1, 0x07), (2, 0x07)]) [.pc] = [0x204] := by decide
/-- T21 -/
theorem test_sneVxVy : afterStep (withRegs 0x9120 [(1, 0x07), (2, 0x08)]) [.pc] = [0x204] := by decide
/-- T22 -/
theorem test_sneVxVy_equal : afterStep (withRegs 0x9120 [(1, 0x07), (2, 0x07)]) [.pc] = [0x202] := by decide
/-- T4 -/
theorem test_fetch_out_of_bounds :
    afterStep { loaded 0x1200 with pc := 0xFFF } [.pc, .running, .err, .opcode] = [0xFFF, 0, 5, 0] := by decide

/-! ### Register and ALU -/

/-- A1 -/
theorem test_ldVxNn : afterStep (withRegs 0x63AB [(3, 0x11)]) [.v 3, .pc] = [0xAB, 0x202] := by decide
/-- A2 -/
theorem test_ldVxNn_flag_register : afterStep (loaded 0x6F55) [.v 15] = [0x55] := by decide
/-- A3 -/
theorem test_addVxNn : afterStep (withRegs 0x7302 [(3, 0xFF), (15, 0x77)]) [.v 3, .v 15] = [1, 0x77] := by decide
/-- A4 -/
theorem test_ldVxVy :
    afterStep (withRegs 0x8120 [(1, 0x01), (2, 0x33), (15, 0x09)]) [.v 1, .v 2, .v 15] = [0x33, 0x33, 9] := by decide
/-- A5 -/
theorem test_or : afterStep (withRegs 0x8121 [(1, 0xF0), (2, 0x0F), (15, 0x09)]) [.v 1, .v 15] = [0xFF, 9] := by decide
/-- A6 -/
theorem test_and : afterStep (withRegs 0x8122 [(1, 0xF0), (2, 0x3C), (15, 0x09)]) [.v 1, .v 15] = [0x30, 9] := by decide
/-- A7 -/
theorem test_xor : afterStep (withRegs 0x8123 [(1, 0xF0), (2, 0x3C), (15, 0x09)]) [.v 1, .v 15] = [0xCC, 9] := by decide
/-- A9, E4 -/
theorem test_addVxVy : afterStep (withRegs 0x8124 [(1, 0xFA), (2, 0x0A)]) [.v 1, .v 15] = [4, 1] := by decide
/-- A13 -/
theorem test_addVxVy_into_flag_register : afterStep (withRegs 0x8F24 [(15, 0xF0), (2, 0x20)]) [.v 15] = [1] := by decide
/-- A16 -/
theorem test_sub_borrow :
    afterStep (withRegs 0x8125 [(1, 0x03), (2, 0x0A), (15, 0x01)]) [.v 1, .v 15] = [0xF9, 0] := by decide
/-- A17 -/
theorem test_sub_equal : afterStep (withRegs 0x8125 [(1, 0x07), (2, 0x07)]) [.v 1, .v 15] = [0, 1] := by decide
/-- A19 -/
theorem test_shr : afterStep (withRegs 0x8126 [(1, 0x05), (2, 0xFF)]) [.v 1, .v 2, .v 15] = [2, 0xFF, 1] := by decide
/-- A21 -/
theorem test_shr_flag_register : afterStep (withRegs 0x8F06 [(15, 0x02)]) [.v 15] = [0] := by decide
/-- A22 -/
theorem test_subn : afterStep (withRegs 0x8127 [(1, 0x03), (2, 0x0A)]) [.v 1, .v 15] = [7, 1] := by decide
/-- A23 -/
theorem test_subn_borrow :
    afterStep (withRegs 0x8127 [(1, 0x0A), (2, 0x03), (15, 0x01)]) [.v 1, .v 15] = [0xF9, 0] := by decide
/-- A24 -/
theorem test_shl : afterStep (withRegs 0x812E [(1, 0x81)]) [.v 1, .v 15] = [2, 1] := by decide
/-- A25 -/
theorem test_shl_no_carry : afterStep (withRegs 0x812E [(1, 0x40), (15, 0x01)]) [.v 1, .v 15] = [0x80, 0] := by decide
/-- A27, for any byte drawn: the mask 0 leaves 0. -/
theorem test_rnd_mask_zero : (exec (.rndVxNn 1 0) (withRegs 0xC100 [(1, 0x55)])) =
    .next ((withRegs 0xC100 [(1, 0x55)]).countDraw.writeReg 1 0).advance := by
  rw [exec_rndVxNn]
  exact congrArg (fun b => Host.Outcome.next ((withRegs 0xC100 [(1, 0x55)]).countDraw.writeReg 1 b).advance) BitVec.and_zero
/-- R132: two draws use two bytes. -/
theorem test_rnd_counts : (stateOf State.reset (exec (.rndVxNn 1 0xFF) State.reset)).rndDraws = 1 := by decide

/-! ### Display -/

/-- G1 -/
theorem test_cls :
    afterStep { loaded 0x00E0 with fb := lit [(0, 0), (63, 31)] } [.pixel 0 0, .pixel 63 31, .draw, .pc] =
      [0, 0, 1, 0x202] := by decide
/-- G4 -/
theorem test_drw_collision :
    afterStep { withRegs 0xD011 [(0, 0x05), (1, 0x03)] with i := 0x23, fb := lit [(5, 3)] } [.pixel 5 3, .pixel 6 3, .pixel 8 3, .pixel 9 3, .v 15, .draw] =
      [0, 1, 1, 0, 1, 1] := by decide
/-- G5 -/
theorem test_drw_clipped :
    afterStep { withRegs 0xD015 [(0, 0x3C), (1, 0x1E)] with i := 0 } [.pixel 60 30, .pixel 63 31, .pixel 61 31, .pixel 0 30, .pixel 60 0, .v 15] =
      [1, 1, 0, 0, 0, 0] := by decide
/-- The alternative of D17: the columns of G5's glyph at column 62 that leave the screen fold to 0 and 1 (R144). -/
theorem test_drw_wrapped : (let t := stateOf (loaded 0) (drawSprite true 0 1 1 (withRegs 0xD011 [(0, 62), (1, 31)]))
    [observe (.pixel 62 31) t, observe (.pixel 63 31) t, observe (.pixel 0 31) t, observe (.pixel 1 31) t,
      observe (.pixel 2 31) t]) = [1, 1, 1, 1, 0] := by decide

/-! ### Keys and timers -/

/-- K3 -/
theorem test_skp : afterStep { withRegs 0xE29E [(2, 0x15)] with keys := 0x0020 } [.pc] = [0x204] := by decide
/-- K2 -/
theorem test_skp_up : afterStep (withRegs 0xE29E [(2, 0x05)]) [.pc] = [0x202] := by decide
/-- K5 -/
theorem test_sknp : afterStep { withRegs 0xE2A1 [(2, 0x05)] with keys := 0x0020 } [.pc] = [0x202] := by decide
/-- K6 -/
theorem test_sknp_up : afterStep (withRegs 0xE2A1 [(2, 0x05)]) [.pc] = [0x204] := by decide
/-- K8 -/
theorem test_ldVxDt : afterStep { loaded 0xF407 with dt := 44 } [.v 4, .dt, .pc] = [0x2C, 44, 0x202] := by decide
/-- K9 -/
theorem test_ldDtVx : afterStep (withRegs 0xF315 [(3, 0x3C)]) [.dt] = [60] := by decide
/-- K10 -/
theorem test_ldStVx : afterStep (withRegs 0xF318 [(3, 0x05)]) [.st, .dt] = [5, 0] := by decide
/-- K11 -/
theorem test_ldVxK : afterStep (loaded 0xF30A) [.wait, .pc, .v 3] = [1, 0x202, 0] := by decide

/-! ### Index register and memory -/

/-- M2 -/
theorem test_ldI : afterStep (loaded 0xAFFF) [.i, .pc] = [0xFFF, 0x202] := by decide
/-- M4 -/
theorem test_addI :
    afterStep { withRegs 0xF21E [(2, 0x0F), (15, 0x01)] with i := 0xFF0 } [.i, .v 15] = [0xFFF, 0] := by decide
/-- M5 -/
theorem test_addI_wraps : afterStep { withRegs 0xF21E [(2, 0x02)] with i := 0xFFFF } [.i, .v 15] = [1, 1] := by decide
/-- M7 -/
theorem test_ldF : afterStep (withRegs 0xFA29 [(10, 0x07)]) [.i] = [0x23] := by decide
/-- M9 -/
theorem test_ldF_no_mask : afterStep (withRegs 0xFA29 [(10, 0xFF)]) [.i] = [0x4FB] := by decide
/-- M11 -/
theorem test_ldB :
    afterStep { withRegs 0xF033 [(0, 0xFF)] with i := 0xFFD } [.mem 0xFFD, .mem 0xFFE, .mem 0xFFF, .i, .running] =
      [2, 5, 5, 0xFFD, 1] := by decide
/-- M12 -/
theorem test_ldB_out_of_bounds :
    afterStep { withRegs 0xF033 [(0, 0xFF)] with i := 0xFFE } [.mem 0xFFE, .mem 0xFFF, .pc, .err] =
      [0, 0, 0x200, 5] := by decide
/-- M14 -/
theorem test_ldMem :
    afterStep { withRegs 0xF255 [(0, 0x01), (1, 0x02), (2, 0x03)] with i := 0x400 } [.mem 0x400, .mem 0x401, .mem 0x402, .mem 0x403, .i] =
      [1, 2, 3, 0, 0x403] := by decide
/-- M16 -/
theorem test_ldMem_out_of_bounds :
    afterStep { withRegs 0xF155 [(0, 0xAA), (1, 0xBB)] with i := 0xFFF } [.mem 0xFFF, .i, .running, .err] =
      [0, 0xFFF, 0, 5] := by decide
/-- M18 -/
theorem test_ldVxMem :
    afterStep { withRegs 0xF265 [(3, 0x99)] with i := 0x300, mem := [(0x200, 0xF2), (0x201, 0x65), (0x300, 2), (0x301, 3), (0x302, 4), (0x303, 5)] } [.v 0, .v 1, .v 2, .v 3, .i] =
      [2, 3, 4, 0x99, 0x303] := by decide
/-- M19 -/
theorem test_ldVxMem_font :
    afterStep { loaded 0xFF65 with i := 0 } [.v 0, .v 1, .v 9, .v 15, .i] = [0xF0, 0x90, 0x70, 0xF0, 0x10] := by decide
/-- K13, E6 -/
theorem test_unknown : afterStep (loaded 0xFFFF) [.pc, .running, .err, .opcode] = [0x200, 0, 1, 0xFFFF] := by decide

/-! ### Host operations -/

/-- K14 -/
theorem test_keyUpdate_no_wait :
    afterOp (.keyUpdate 0x8001) (loaded 0) [.key 0, .key 1, .key 15, .wait] = [1, 0, 1, 0] := by decide
/-- K16 -/
theorem test_keyUpdate_held :
    afterOp (.keyUpdate 0x0008) { loaded 0xF30A with wait := true, opcode := 0xF30A, keys := 0x0008 } [.v 3, .wait, .key 3] =
      [0, 1, 1] := by decide
/-- K17 -/
theorem test_keyUpdate_new :
    afterOp (.keyUpdate 0x0208) { loaded 0xF30A with wait := true, opcode := 0xF30A, keys := 0x0008 } [.v 3, .wait, .key 9] =
      [9, 0, 1] := by decide
/-- K18 -/
theorem test_keyUpdate_lowest :
    afterOp (.keyUpdate 0x0090) { loaded 0xF30A with wait := true, opcode := 0xF30A } [.v 3, .wait, .key 4, .key 7] =
      [4, 0, 1, 1] := by decide
/-- K20 -/
theorem test_keyUpdate_flag_register :
    afterOp (.keyUpdate 0x0002) { loaded 0xFF0A with wait := true, opcode := 0xFF0A } [.v 15, .wait] = [1, 0] := by decide
/-- The level reading of K16 and K17 (D21). -/
theorem test_keyUpdate_level : observe (.v 3) (keyUpdateWith .level 0x0208 { loaded 0xF30A with
    wait := true, opcode := 0xF30A, keys := 0x0008 }) = 3 := by decide
/-- H1 -/
theorem test_step_not_running : afterOp (.step) State.reset [.pc, .err, .running, .opcode] = [0x200, 4, 0, 0] := by decide
/-- H2, E8 -/
theorem test_tick :
    afterOp (.tick) { loaded 0 with running := false, err := .sov, dt := 5, st := 1 } [.dt, .st, .err] =
      [4, 0, 2] := by decide
/-- E8 -/
theorem test_tick_floor : afterOp (.tick) (loaded 0) [.dt, .st] = [0, 0] := by decide
/-- H5 -/
theorem test_load :
    afterOp (.load [0x12, 0x00]) { loaded 0xF30A with running := false, err := .aob } [.mem 0x200, .mem 0x201, .running, .err, .pc] =
      [0x12, 0, 1, 0, 0x200] := by decide
/-- H6 -/
theorem test_init :
    afterOp (.init) { withRegs 0x1234 [(1, 0x55)] with draw := true } [.v 1, .draw, .running, .err, .mem 0x200, .mem 0, .pc] =
      [0, 0, 0, 4, 0, 0xF0, 0x200] := by decide
/-- R145 -/
theorem test_ackFrame : afterOp (.ackFrame) { loaded 0 with draw := true } [.draw, .running] = [0, 1] := by decide
/-- H7, E1: an empty program is rejected; one byte is accepted. -/
theorem test_load_reply : HostOp.reply (.load []) State.reset = .rejected ∧ HostOp.reply (.load [0xAB]) State.reset = .accepted := by
  decide
/-- R28, D18: element `py * 64 + px` of the flat array. -/
theorem test_flatPixel : flatPixel 197 { State.reset with fb := lit [(5, 3)] } = true := by decide
/-- withFetchWord places the word where the next step fetches it (log 2). -/
theorem test_withFetchWord :
    afterStep (State.reset.withFetchWord 16 0x6311) [.v 3, .pc, .running] = [0x11, 0x202, 1] := by decide
theorem test_reset_memory_canonical : State.reset.mem.wf := Memory.wf_nil

/-! ### Witnesses: the hypotheses of the statements can be met, each clause at a boundary value -/

theorem witness_DecodeOfEncodeIsTheInstruction :
    (Instr.ldVxMem 15).wellFormed = true ∧ (Instr.unknownInstruction 0x512F).wellFormedWith true = true := by decide

theorem witness_AssemblingTheDisassemblyGivesTheBytes : ∀ op, Instr.shrVx 1 2 ≠ .unknownInstruction op := by
  intro op h
  cases h

theorem witness_WordBelongsToRowExactlyByMask :
    opcodeRow (.ldVxMem 15) = some ⟨0xF0FF, 0xF065, 0xF0FF, 0xF065⟩ ∧ opcodeRow .cls = some ⟨0xF00F, 0x0000, 0xFFFF, 0x00E0⟩ := by
  decide

theorem witness_StepRunsTheDecodedInstruction :
    let s := { loaded 0 with pc := 0xFFE, mem := [(0xFFE, 0xA1), (0xFFF, 0x23)] }
    s.running = true ∧ s.wait = false ∧ s.pc.toNat ≤ 0xFFE ∧ s.mem.read s.pc.toNat = 0xA1 ∧
      s.mem.read (s.pc.toNat + 1) = 0x23 ∧ decode [0xA1, 0x23] = .ok (.ldINnn 0x123, []) := by decide

/-- Both positions of PC: a word fits, and none does. -/
theorem witness_PlacedWordRunsNext :
    (65535 < 65536) ∧ State.reset.pc.toNat ≤ 0xFFE ∧ ¬ ({ State.reset with pc := 0xFFF } : State).pc.toNat ≤ 0xFFE := by decide

theorem witness_GatedStepChangesNothing :
    State.reset.running = false ∧ ({ loaded 0xF30A with wait := true } : State).wait = true := by decide

theorem witness_FetchOutsideMemoryHalts :
    let s := { loaded 0 with pc := 0xFFF }
    s.running = true ∧ s.wait = false ∧ 0xFFE < s.pc.toNat := by decide

theorem witness_FetchedWordStaysInOpcode :
    let s := { loaded 0 with pc := 0xFFE }
    s.running = true ∧ s.wait = false ∧ s.pc.toNat ≤ 0xFFE ∧ step s = .next (stateOf s (step s)) := by
  exact ⟨by decide, by decide, by decide, rfl⟩

theorem witness_UnknownInstructionHalts :
    let s := loaded 0xF325
    s.running = true ∧ s.wait = false ∧ s.pc.toNat ≤ 0xFFE ∧
      illegalWord (joinBytes (s.mem.read s.pc.toNat) (s.mem.read (s.pc.toNat + 1))) = true := by decide

/-- `nnn + V[0]` at 0xFFF and at 0x1000. -/
theorem witness_JumpsReachTheirTarget :
    (0xF00 : Addr12).toNat + ((withRegs 0 [(0, 0xFF)]).reg 0).toNat < 4096 ∧
      4096 ≤ (0xFFF : Addr12).toNat + ((withRegs 0 [(0, 0x01)]).reg 0).toNat := by decide

/-- SP at 15 and at 16. -/
theorem witness_CallPushesItsOwnAddress :
    ({ loaded 0 with sp := 15 } : State).sp.val = (15 : Fin 16).val ∧ ({ loaded 0 with sp := 16 } : State).sp.val = 16 := by decide

/-- SP at 16, at 1 and at 0. -/
theorem witness_RetContinuesPastTheCall :
    ({ loaded 0 with sp := 16 } : State).sp.val = (15 : Fin 16).val + 1 ∧
      ({ loaded 0 with sp := 1 } : State).sp.val = (0 : Fin 16).val + 1 ∧ (loaded 0).sp.val = 0 := by decide

/-- Sixteen calls from an empty stack, and one from the last entry. -/
theorem witness_CallsAndReturnsNest :
    List.replicate 16 (0x200 : Addr12) ≠ [] ∧ (loaded 0).sp.val + (List.replicate 16 (0x200 : Addr12)).length ≤ 16 ∧
      ({ loaded 0 with sp := 15 } : State).sp.val + [(0x200 : Addr12)].length ≤ 16 := by decide

/-- Height 0 with I outside memory, the last legal address, and one past it. -/
theorem witness_DrwInvertsExactlyTheCoveredPixels :
    (0 : Nibble).toNat = 0 ∧ indexAddress { loaded 0 with i := 0xFFD } + (3 : Nibble).toNat - 1 < 4096 ∧
      (3 : Nibble).toNat ≠ 0 ∧ 4096 ≤ indexAddress { loaded 0 with i := 0xFFE } + (3 : Nibble).toNat - 1 := by decide

/-- Column 63 of row 31 is covered by glyph 0 drawn there, and column 62 is not. -/
theorem witness_spriteCovers :
    spriteCovers 0 1 1 (withRegs 0 [(0, 63), (1, 31)]) 63 31 ∧ ¬ spriteCovers 0 1 1 (withRegs 0 [(0, 63), (1, 31)]) 62 31 := by
  refine ⟨⟨0, 0, by decide⟩, ?_⟩
  rintro ⟨r, c, hr, hc, hx, -⟩
  simp [withRegs, State.reg, State.writeReg] at hx
  omega

/-- A sprite drawn twice with its corner on the screen, over unlit pixels. -/
theorem witness_DrawingTwiceCancels :
    let s := withRegs 0xD015 [(0, 63), (1, 31)]
    let t := stateOf s (exec (.drwVxVyN 0 1 5) s)
    s.running = true ∧ exec (.drwVxVyN 0 1 5) s = .next t ∧ t.running = true ∧ t.reg 0 = s.reg 0 ∧ t.reg 1 = s.reg 1 ∧
      exec (.drwVxVyN 0 1 5) t = .next (stateOf t (exec (.drwVxVyN 0 1 5) t)) ∧
      (∃ (px : Fin 64) (py : Fin 32), spriteCovers 0 1 5 s px.val py.val) ∧
      (∀ (px : Fin 64) (py : Fin 32), spriteCovers 0 1 5 s px.val py.val → Frame.pixel s.fb px.val py.val = false) := by
  refine ⟨by decide, rfl, by decide, by decide, by decide, rfl, ⟨63, 31, 0, 0, by decide⟩, ?_⟩
  intro px py _
  have blank : (withRegs 0xD015 [(0, 63), (1, 31)]).fb = Frame.blank := by decide
  show Frame.pixel (withRegs 0xD015 [(0, 63), (1, 31)]).fb px.val py.val = false
  rw [blank]
  simp [Frame.pixel, Frame.blank]

/-- A sprite drawn twice wholly off the screen. -/
theorem witness_DrawingTwiceCancels_off_screen :
    let s := withRegs 0xD015 [(0, 64), (1, 0)]
    let t := stateOf s (exec (.drwVxVyN 0 1 5) s)
    s.running = true ∧ exec (.drwVxVyN 0 1 5) s = .next t ∧ t.running = true ∧ t.reg 0 = s.reg 0 ∧ t.reg 1 = s.reg 1 ∧
      exec (.drwVxVyN 0 1 5) t = .next (stateOf t (exec (.drwVxVyN 0 1 5) t)) ∧
      ¬ ∃ (px : Fin 64) (py : Fin 32), spriteCovers 0 1 5 s px.val py.val := by
  refine ⟨by decide, rfl, by decide, by decide, by decide, rfl, ?_⟩
  rintro ⟨px, py, r, c, -, -, hx, -⟩
  have h : ((withRegs 0xD015 [(0, 64), (1, 0)]).reg 0).toNat = 64 := by decide
  have := px.isLt
  change px.val = ((withRegs 0xD015 [(0, 64), (1, 0)]).reg 0).toNat + c at hx
  omega

/-- Height 0 with I outside memory, the last legal address, and one past it. -/
theorem witness_WrappedSpritesFoldOntoTheScreen :
    (0 : Nibble).toNat = 0 ∧ indexAddress { loaded 0 with i := 0xFFD } + (3 : Nibble).toNat - 1 < 4096 ∧
      (3 : Nibble).toNat ≠ 0 ∧ 4096 ≤ indexAddress { loaded 0 with i := 0xFFE } + (3 : Nibble).toNat - 1 := by decide

/-- A sprite from column 63 of row 31 folds onto column 0 of row 31 and column 63 of row 0, and not onto column 0 of row 0,
where glyph 0 has a hole; one of the pixels folded onto is lit. -/
theorem witness_spriteFoldsOnto :
    let s := { withRegs 0 [(0, 63), (1, 31)] with fb := lit [(0, 31)] }
    spriteFoldsOnto 0 1 2 s 0 31 ∧ spriteFoldsOnto 0 1 2 s 63 0 ∧ Frame.pixel s.fb 0 31 = true ∧
      ¬ spriteFoldsOnto 0 1 2 s 0 0 := by
  refine ⟨⟨0, 1, by decide⟩, ⟨1, 0, by decide⟩, by decide, ?_⟩
  rintro ⟨r, c, hr, hc, hx, hy, hb⟩
  have hr2 : r < 2 := hr
  revert hb hx hy
  interval_cases r <;> interval_cases c <;> decide

/-- I at 0xFFD and at 0xFFE. -/
theorem witness_LdBStoresTheDecimalDigits :
    indexAddress { loaded 0 with i := 0xFFD } + 2 < 4096 ∧ 4096 ≤ indexAddress { loaded 0 with i := 0xFFE } + 2 := by decide

/-- `I + x` at 0xFFF and at 0x1000. -/
theorem witness_BlockStoreWritesTheRegisters :
    indexAddress { loaded 0 with i := 0xFF0 } + (15 : Reg).val < 4096 ∧
      4096 ≤ indexAddress { loaded 0 with i := 0xFF1 } + (15 : Reg).val ∧ (15 : Reg).val ≤ (15 : Reg).val := by decide

theorem witness_BlockLoadReadsTheBytes :
    indexAddress { loaded 0 with i := 0xFFF } + (0 : Reg).val < 4096 ∧
      4096 ≤ indexAddress { loaded 0 with i := 0x1000 } + (0 : Reg).val ∧ (0 : Reg).val ≤ (0 : Reg).val := by decide

/-- M17, and the last word of memory. -/
theorem witness_StoredCodeIsFetched :
    let s := { withRegs 0xF155 [(0, 0x12), (1, 0x06)] with i := 0x202 }
    (0 : Reg).val + 1 = (1 : Reg).val ∧ (1 : Reg).val ≤ (1 : Reg).val ∧ indexAddress s + (1 : Reg).val < 4096 ∧
      indexAddress { s with i := 0xFFE } + (1 : Reg).val < 4096 ∧
      exec (.ldMemVx 1) s = .next (stateOf s (exec (.ldMemVx 1) s)) := by
  exact ⟨by decide, by decide, by decide, by decide, rfl⟩

theorem witness_HaltingWritesOnlyErrAndRunning :
    let t := stateOf (loaded 0x00EE) (exec .ret (loaded 0x00EE))
    (loaded 0x00EE).running = true ∧ exec .ret (loaded 0x00EE) = .next t ∧ t.running = false ∧
      step (loaded 0x00EE) = .next (stateOf t (step (loaded 0x00EE))) ∧
      (stateOf t (step (loaded 0x00EE))).running = false := by
  exact ⟨by decide, rfl, by decide, rfl, by decide⟩

/-- A call on a full stack, which overflows, and one on the last entry, which does not. -/
theorem witness_StackOverflowExactlyByTheFullCall :
    let s := { loaded 0x2ABC with sp := 16 }
    let s' := { loaded 0x2ABC with sp := 15 }
    s.err ≠ .sov ∧ exec (.callNnn 0xABC) s = .next (stateOf s (exec (.callNnn 0xABC) s)) ∧
      (stateOf s (exec (.callNnn 0xABC) s)).err = .sov ∧ s'.err ≠ .sov ∧
      exec (.callNnn 0xABC) s' = .next (stateOf s' (exec (.callNnn 0xABC) s')) := by
  exact ⟨by decide, rfl, by decide, by decide, rfl⟩

theorem witness_StackUnderflowExactlyByTheEmptyReturn :
    let s := loaded 0x00EE
    let s' := { loaded 0x00EE with sp := 1 }
    s.err ≠ .sun ∧ exec .ret s = .next (stateOf s (exec .ret s)) ∧ (stateOf s (exec .ret s)).err = .sun ∧ s'.err ≠ .sun ∧
      exec .ret s' = .next (stateOf s' (exec .ret s')) := by
  exact ⟨by decide, rfl, by decide, by decide, rfl⟩

/-- Each of the five cases raises it at its first address out of range. -/
theorem witness_AddressOutOfBoundsExactlyInTheseCases :
    let at' := fun i : Word => { withRegs 0 [(0, 1)] with i := i }
    (loaded 0).err ≠ .aob ∧
      (stateOf (at' 0) (exec (.jpV0Nnn 0xFFF) (at' 0))).err = .aob ∧
      (stateOf (at' 0) (exec (.drwVxVyN 0 0 1) (at' 0x1000))).err = .aob ∧
      (stateOf (at' 0) (exec (.ldBVx 0) (at' 0xFFE))).err = .aob ∧
      (stateOf (at' 0) (exec (.ldMemVx 0) (at' 0x1000))).err = .aob ∧
      (stateOf (at' 0) (exec (.ldVxMem 15) (at' 0xFF1))).err = .aob := by decide

/-- One byte and 3584; none and 3585. -/
theorem witness_LoadPlacesTheProgramOrChangesNothing :
    (1 ≤ [(0xAB : Byte)].length ∧ [(0xAB : Byte)].length ≤ 3584) ∧
      (1 ≤ (List.replicate 3584 (0xAB : Byte)).length ∧ (List.replicate 3584 (0xAB : Byte)).length ≤ 3584) ∧
      ([] : List Byte).length = 0 ∧ 3584 < (List.replicate 3585 (0xAB : Byte)).length := by
  rw [List.length_replicate, List.length_replicate]
  decide

/-- K17: the wait ends with key 9, while key 3 is held; K16 and K14: it goes on, or there is none. -/
theorem witness_KeyPressEndsTheWait :
    let s := { loaded 0xF30A with wait := true, opcode := 0xF30A, keys := 0x0008 }
    (s.wait = true ∧ (0x0208 : Word).getLsbD (9 : Fin 16).val = true ∧ s.keys.getLsbD (9 : Fin 16).val = false ∧
      ∀ j : Fin 16, j < 9 → (0x0208 : Word).getLsbD j.val = true → s.keys.getLsbD j.val = true) ∧
      (∀ k : Fin 16, (0x0008 : Word).getLsbD k.val = true → s.keys.getLsbD k.val = true) ∧ (loaded 0).wait = false := by decide

theorem witness_WaitOutlastsStepsAndTicks :
    ({ loaded 0xF30A with wait := true } : State).wait = true ∧ passive [.step, .tick, .ackFrame, .observe .dt, .step] := by
  refine ⟨by decide, ?_⟩
  intro op h
  simp at h
  rcases h with rfl | rfl | rfl | rfl | rfl <;> simp

theorem witness_HaltIsTerminalUntilRestart :
    State.reset.running = false ∧ noRestart [.step, .tick, .keyUpdate 1, .ackFrame, .load []] ∧ loadAccepted [0x12, 0x00] = true := by
  refine ⟨by decide, ?_, by decide⟩
  intro op h
  simp at h
  rcases h with rfl | rfl | rfl | rfl | rfl <;> simp [loadAccepted]

/-- RUNNING set by a Load, cleared by Init, and cleared by a Step that raises a fatal condition. -/
theorem witness_RunningIsSetOnlyByLoad :
    (State.reset.running = false ∧ HostOp.apply (.load [0x12]) State.reset = .next (Machine.load [0x12] State.reset) ∧
      (Machine.load [0x12] State.reset).running = true ∧ loadAccepted [0x12] = true) ∧
    ((loaded 0xFFFF).running = true ∧ HostOp.apply .init (loaded 0xFFFF) = .next (initialise (loaded 0xFFFF)) ∧
      (initialise (loaded 0xFFFF)).running = false) ∧
    (HostOp.apply .step (loaded 0xFFFF) = .next (stateOf State.reset (step (loaded 0xFFFF))) ∧
      (loaded 0xFFFF).err = .none ∧ (stateOf State.reset (step (loaded 0xFFFF))).err ≠ .none ∧
      (stateOf State.reset (step (loaded 0xFFFF))).running = false) := by
  exact ⟨⟨by decide, rfl, by decide, by decide⟩, ⟨by decide, rfl, by decide⟩, rfl, by decide, by decide, by decide⟩

theorem witness_HeldKeyEndsOnlyALevelWait :
    let s := { loaded 0xF30A with wait := true, opcode := 0xF30A, keys := 0x0008 }
    s.wait = true ∧ s.keys = BitVec.twoPow 16 (3 : Fin 16).val := by decide

/-- `nnn + I` at 0xFFF and at 0x1000; a destination that is not VF. -/
theorem witness_AlternativeOperandSources :
    (0x0FF : Addr12).toNat + ({ loaded 0 with i := 0xF00 } : State).i.toNat < 4096 ∧
      4096 ≤ (0x100 : Addr12).toNat + ({ loaded 0 with i := 0xF00 } : State).i.toNat ∧ (1 : Reg) ≠ flagReg := by decide

/-- The destinations of the flag-writing instructions, the conditions of the skips and the bits of RND's mask: both sides. -/
theorem witness_register_clauses :
    (1 : Reg) ≠ flagReg ∧ (withRegs 0 [(1, 7), (2, 7)]).reg 1 = (withRegs 0 [(1, 7), (2, 7)]).reg 2 ∧
      ¬ (withRegs 0 [(1, 7), (2, 8)]).reg 1 = (withRegs 0 [(1, 7), (2, 8)]).reg 2 ∧
      ({ loaded 0 with keys := 1 } : State).keys.getLsbD (((loaded 0).reg 0).toNat % 16) = true ∧
      ¬ (loaded 0).keys.getLsbD (((loaded 0).reg 0).toNat % 16) = true := by decide

/-- A running state in the middle of a program, with one live stack entry, meets the invariant, and so does a waiting one. -/
theorem witness_InvariantKeptByEveryStep :
    let s := { loaded 0x00EE with sp := 1, stack := (Vector.replicate 16 0).set 0 0x2F0 }
    Inv s ∧ step s = .next (stateOf s (step s)) := by
  refine ⟨⟨by decide, by decide, by decide, by decide, by decide, ?_⟩, rfl⟩
  exact Memory.writeBytes_wf [] 0x200 _ Memory.wf_nil (by decide)

theorem witness_InvariantKeptByEveryRun :
    Inv { loaded 0xF30A with wait := true, opcode := 0xF30A, pc := 0x202 } ∧
      runHostOps [.keyUpdate 8, .step] State.reset = .next (stateOf State.reset (runHostOps [.keyUpdate 8, .step] State.reset)) := by
  refine ⟨⟨by decide, by decide, by decide, by decide, by decide, ?_⟩, rfl⟩
  exact Memory.writeBytes_wf [] 0x200 _ Memory.wf_nil (by decide)

/-- An instruction that changes DT, one that changes memory. -/
theorem witness_ProgramsWriteOnlyWhatTheirInstructionsMay :
    let s := { withRegs 0 [(0, 9)] with i := 0x300 }
    exec (.ldDtVx 0) s = .next (stateOf s (exec (.ldDtVx 0) s)) ∧ (stateOf s (exec (.ldDtVx 0) s)).dt ≠ s.dt ∧
      exec (.ldBVx 0) s = .next (stateOf s (exec (.ldBVx 0) s)) ∧ (stateOf s (exec (.ldBVx 0) s)).mem ≠ s.mem := by
  exact ⟨rfl, by decide, rfl, by decide⟩

/-- VF changed as a flag, the highest register of a block load changed, PC changed by a skip, a jump and a halt. -/
theorem witness_ProgramsWriteOnlyWhatTheirInstructionsMay_registers :
    let s := withRegs 0 [(1, 0xFF), (2, 1)]
    let after := fun i => stateOf s (exec i s)
    (exec (.addVxVy 1 2) s = .next (after (.addVxVy 1 2)) ∧ (after (.addVxVy 1 2)).reg flagReg ≠ s.reg flagReg) ∧
      (exec (.ldVxMem 1) s = .next (after (.ldVxMem 1)) ∧ (after (.ldVxMem 1)).reg 1 ≠ s.reg 1) ∧
      (after (.seVxNn 1 0xFF)).pc ≠ s.pc + 2 ∧ (after (.jpNnn 0x300)).pc ≠ s.pc + 2 ∧ (after .ret).pc ≠ s.pc + 2 := by
  exact ⟨⟨rfl, by decide⟩, ⟨rfl, by decide⟩, by decide, by decide, by decide⟩

/-- The tables of 10_state.md name the registers and instructions they should: the last register of a block load, not the
next; VF for ADD I; a skip, a redirection. -/
theorem test_write_tables : mayWriteReg 3 (.ldVxMem 3) = true ∧ mayWriteReg 4 (.ldVxMem 3) = false ∧
    mayWriteReg flagReg (.addIVx 3) = true ∧ mayWriteReg 3 (.addIVx 3) = false ∧ mayWriteReg flagReg (.orVxVy 1 2) = false := by
  decide
theorem test_isSkip : isSkip (.sknpVx 3) := ⟨3, 0, 0, by decide⟩
theorem test_redirects : redirects (.jpV0Nnn 0x300) := .inr ⟨0x300, by decide⟩

theorem witness_SoundTimerAndOpcodeAreNeverRead :
    exec (.ldStVx 3) (loaded 0xF318) = .next (stateOf (loaded 0) (exec (.ldStVx 3) (loaded 0xF318))) ∧
      exec .cls (loaded 0x00E0) = .next (stateOf (loaded 0) (exec .cls (loaded 0x00E0))) ∧ ∀ x, Instr.cls ≠ .ldStVx x := by
  exact ⟨rfl, rfl, by decide⟩

theorem witness_JumpToItselfIsStationary :
    let s := loaded 0x1200
    s.running = true ∧ s.wait = false ∧ s.pc.toNat ≤ 0xFFE ∧
      (joinBytes (s.mem.read s.pc.toNat) (s.mem.read (s.pc.toNat + 1))).toNat = 0x1000 + s.pc.toNat := by decide

theorem witness_ObservationsDetermineTheState :
    (loaded 0x1200).mem.wf ∧ State.reset.mem.wf ∧ (∀ e, observe e (initialise (loaded 0x1200)) = observe e State.reset) ∧
      (initialise (loaded 0x1200)).rndDraws = State.reset.rndDraws := by
  exact ⟨Memory.writeBytes_wf [] 0x200 _ Memory.wf_nil (by decide), Memory.wf_nil, fun _ => rfl, rfl⟩

end Sys2Proof.Tests.Slice0
end

/-! ## RUNNING under the host operations (10_state.md R32) -/

namespace Sys2Proof.Machine

/-! ### What execution and Step can do to RUNNING and ERR -/

/-- RUNNING and ERR are as before, or the one thing that happened is a fatal condition (60_exceptions.md R195). -/
def KeepsRunOrHalts (s t : State) : Prop :=
  (t.running = s.running ∧ t.err = s.err) ∨ ∃ c : FatalCode, t = s.halt c

theorem keepsRunOrHalts_halt (c : FatalCode) (s : State) : KeepsRunOrHalts s (s.halt c) := .inr ⟨c, rfl⟩

/-- A choice between two next states, as the guard of an instruction makes it. -/
theorem KeepsRunOrHalts.ite {p : Prop} [Decidable p] {s t u : State} (ht : KeepsRunOrHalts s t)
    (hu : KeepsRunOrHalts s u) : KeepsRunOrHalts s (if p then t else u) := by
  split
  · exact ht
  · exact hu

/-- Every instruction answers a next state, and leaves RUNNING and ERR alone unless it halts the machine. -/
theorem exec_next_keepsRunOrHalts (i : Instr) (s : State) : ∃ t, exec i s = .next t ∧ KeepsRunOrHalts s t := by
  cases i with
  -- the eight that can raise a fatal condition
  | ret => exact ⟨_, exec_ret s, .ite (keepsRunOrHalts_halt _ _) (.inl ⟨by simp, by simp⟩)⟩
  | callNnn nnn => exact ⟨_, exec_callNnn s nnn, .ite (keepsRunOrHalts_halt _ _) (.inl ⟨by simp, by simp⟩)⟩
  | jpV0Nnn nnn => exact ⟨_, exec_jpV0Nnn s nnn, .ite (keepsRunOrHalts_halt _ _) (.inl ⟨rfl, rfl⟩)⟩
  | drwVxVyN x y n => exact ⟨_, exec_drwVxVyN s x y n, .ite (.inl ⟨rfl, rfl⟩) (keepsRunOrHalts_halt _ _)⟩
  | ldBVx x => exact ⟨_, exec_ldBVx s x, .ite (.inl ⟨rfl, rfl⟩) (keepsRunOrHalts_halt _ _)⟩
  | ldMemVx x => exact ⟨_, exec_ldMemVx s x, .ite (.inl ⟨rfl, rfl⟩) (keepsRunOrHalts_halt _ _)⟩
  | ldVxMem x => exact ⟨_, exec_ldVxMem s x, .ite (.inl ⟨by simp, by simp⟩) (keepsRunOrHalts_halt _ _)⟩
  | unknownInstruction op => exact ⟨_, exec_unknownInstruction s op, keepsRunOrHalts_halt _ _⟩
  -- the two whose bound check a 12-bit address always passes
  | jpNnn nnn => exact ⟨_, exec_jpNnn s nnn, .inl ⟨rfl, rfl⟩⟩
  | ldINnn nnn => exact ⟨_, exec_ldINnn s nnn, .inl ⟨rfl, rfl⟩⟩
  -- the rest, unconditional updates of other fields
  | _ => exact ⟨_, rfl, .inl ⟨rfl, rfl⟩⟩

/-- A Step leaves RUNNING and ERR alone, or ends with RUNNING clear and a fatal code latched. -/
theorem step_running_err_cases {s t : State} (h : step s = .next t) :
    (t.running = s.running ∧ t.err = s.err) ∨ (t.running = false ∧ ∃ c : FatalCode, t.err = c.toError) := by
  rcases step_cases h with ⟨-, rfl⟩ | ⟨-, -, rfl⟩ | ⟨-, -, hexec⟩
  · exact .inl ⟨rfl, rfl⟩
  · exact .inr ⟨rfl, .aob, rfl⟩
  · obtain ⟨u, hu, hkeeps⟩ := exec_next_keepsRunOrHalts _ _
    obtain rfl : u = t := Host.Outcome.next.inj (hu.symm.trans hexec)
    rcases hkeeps with hsame | ⟨c, rfl⟩
    · exact .inl hsame
    · exact .inr ⟨rfl, c, rfl⟩

/-- A Step has no effect unless RUNNING is set (40_step_cycle.md R90). -/
theorem step_of_not_running {s : State} (h : s.running = false) : step s = .next s := by
  simp [step, State.active, h]

/-! ### RUNNING after the other host operations -/

@[simp] theorem initialise_running (s : State) : (initialise s).running = false := rfl
@[simp] theorem tick_running (s : State) : (tick s).running = s.running := rfl
@[simp] theorem ackFrame_running (s : State) : (ackFrame s).running = s.running := rfl

@[simp] theorem resolveWait_running (w : Word) (s : State) : (resolveWait w s).running = s.running := by
  rcases resolveWait_cases w s with h | ⟨k, -, -, h⟩ <;> simp [h]

@[simp] theorem keyUpdate_running (mask : Word) (s : State) : (keyUpdate mask s).running = s.running := by
  simp [keyUpdate, keyUpdateWith]

theorem load_running_of_accepted {bytes : List Byte} (h : loadAccepted bytes = true) (s : State) :
    (load bytes s).running = true := by
  simp [load, h]

theorem load_of_rejected {bytes : List Byte} (h : loadAccepted bytes = false) (s : State) : load bytes s = s := by
  simp [load, h]

/-- All that a host operation can do to RUNNING: nothing, set it by an accepted Load, clear it by Init, or clear it by a Step
that latches a fatal code. -/
theorem HostOp.apply_running_cases {op : HostOp} {s t : State} (h : op.apply s = .next t) :
    t.running = s.running ∨
    (t.running = true ∧ ∃ bytes, op = .load bytes ∧ loadAccepted bytes = true) ∨
    (t.running = false ∧ op = .init) ∨
    (t.running = false ∧ op = .step ∧ ∃ c : FatalCode, t.err = c.toError) := by
  cases op with
  | init => cases h; exact .inr (.inr (.inl ⟨rfl, rfl⟩))
  | load bytes =>
    cases h
    cases hacc : loadAccepted bytes with
    | true => exact .inr (.inl ⟨load_running_of_accepted hacc s, bytes, rfl, hacc⟩)
    | false => rw [load_of_rejected hacc]; exact .inl rfl
  | step =>
    rcases step_running_err_cases h with ⟨hsame, -⟩ | ⟨hrun, hcode⟩
    · exact .inl hsame
    · exact .inr (.inr (.inr ⟨hrun, rfl, hcode⟩))
  | tick => cases h; exact .inl (tick_running s)
  | keyUpdate mask => cases h; exact .inl (keyUpdate_running mask s)
  | ackFrame => cases h; exact .inl (ackFrame_running s)
  | observe e => cases h; exact .inl rfl

/-- Settles O46: the first two clauses are read off the four cases of `HostOp.apply_running_cases`, the others are what Init,
Step and an accepted Load each do. -/
theorem runningIsSetOnlyByLoad : Obligations.RunningIsSetOnlyByLoad := by
  intro op s t h
  refine ⟨?rises, ?falls, ?init, ?error, ?halted, ?loaded⟩
  case rises =>
    intro hs ht
    rcases HostOp.apply_running_cases h with hsame | ⟨-, hload⟩ | ⟨hclear, -⟩ | ⟨hclear, -, -⟩
    · simp [hs, ht] at hsame
    · exact hload
    · simp [ht] at hclear
    · simp [ht] at hclear
  case falls =>
    intro hs ht
    rcases HostOp.apply_running_cases h with hsame | ⟨hset, -⟩ | ⟨-, hinit⟩ | ⟨-, hstep⟩
    · simp [hs, ht] at hsame
    · simp [ht] at hset
    · exact .inl hinit
    · exact .inr hstep
  case init =>
    rintro rfl
    cases h
    exact initialise_running s
  case error =>
    rintro rfl hnone herr
    rcases step_running_err_cases h with ⟨-, hsame⟩ | ⟨hrun, -⟩
    · exact absurd (hsame.trans hnone) herr
    · exact hrun
  case halted =>
    rintro rfl hs
    exact Host.Outcome.next.inj (h.symm.trans (step_of_not_running hs))
  case loaded =>
    rintro bytes rfl hacc
    cases h
    exact load_running_of_accepted hacc s

end Sys2Proof.Machine

/-! ## The gate of the step cycle (40_step_cycle.md R90) -/

namespace Sys2Proof.Machine

/-- A Step has no effect while WAIT is set (40_step_cycle.md R90). -/
theorem step_of_waiting {s : State} (h : s.wait = true) : step s = .next s := by
  simp [step, State.active, h]

/-- Settles O9: the gate is closed by either of its two conditions, and each alone makes Step answer its own state. -/
theorem gatedStepChangesNothing : Obligations.GatedStepChangesNothing := by
  rintro s (hstopped | hwaiting)
  · exact step_of_not_running hstopped
  · exact step_of_waiting hwaiting

end Sys2Proof.Machine

/-! ## The nesting of calls and returns (41_control_flow.md R108) -/

namespace Sys2Proof.Machine

/-- A run of a sequence goes on from where its first part ended. -/
theorem runInstrs_append {is js : List Instr} {s t : State} (h : runInstrs is s = .next t) :
    runInstrs (is ++ js) s = runInstrs js t := by
  induction is generalizing s with
  | nil => cases h; rfl
  | cons i is ih =>
    simp only [List.cons_append, runInstrs] at h ⊢
    split at h
    · exact ih h
    · cases h
    · cases h

@[simp] theorem runInstrs_singleton (i : Instr) (s : State) : runInstrs [i] s = exec i s := by
  simp only [runInstrs]
  split <;> simp [*]

/-- What a balanced sequence of calls and returns leaves of `s`: everything but PC and the stack entries at and above SP. -/
def Balanced (s t : State) : Prop :=
  ∃ pc stack, t = (s.setStack stack s.sp).setPc pc ∧ ∀ k (hk : k < s.sp.val), stack[k]'(by omega) = s.stack[k]'(by omega)

theorem balanced_refl (s : State) : Balanced s s := ⟨s.pc, s.stack, rfl, fun _ _ => rfl⟩

theorem Balanced.sp {s t : State} (h : Balanced s t) : t.sp = s.sp := by
  obtain ⟨pc, stack, rfl, -⟩ := h
  rfl

/-- A balanced sequence writes PC and stack entries from SP up, and no other element. -/
theorem Balanced.frames {s t : State} (h : Balanced s t) :
    Frames (fun e => e = .pc ∨ ∃ k : Fin 16, s.sp.val ≤ k.val ∧ e = .stack k) s t := by
  obtain ⟨pc, stack, rfl, hbelow⟩ := h
  refine ⟨fun e he => ?_, rfl⟩
  cases e with
  | pc => exact absurd (.inl rfl) he
  | stack k =>
    have hk : k.val < s.sp.val := by
      by_contra hge
      exact he (.inr ⟨k, by omega, rfl⟩)
    exact congrArg BitVec.toNat (hbelow k.val hk)
  | _ => rfl

/-- The state after a call to `nnn` on a stack with room. -/
def State.called (s : State) (nnn : Addr12) (h : s.sp.val < 16) : State :=
  (s.setStack (s.stack.set s.sp.val s.pc h) ⟨s.sp.val + 1, by omega⟩).setPc (zextAddress nnn)

theorem exec_callNnn_of_room (s : State) (nnn : Addr12) (h : s.sp.val < 16) :
    exec (.callNnn nnn) s = .next (s.called nnn h) := by
  simp [exec_callNnn, State.called, State.pushed, h, show s.sp.val ≠ 16 by omega]

theorem exec_ret_of_entry {s : State} {k : Fin 16} (h : s.sp.val = k.val + 1) :
    exec .ret s = .next ((s.setStack s.stack ⟨k.val, by omega⟩).setPc (s.stack[k] + 2)) := by
  simp [exec_ret, State.popped, h]

/-- A balanced sequence inside a call leaves the call's own entry on top, so that the return which follows it goes to two past
the call and closes a balanced sequence. -/
theorem Balanced.exec_ret {s t : State} {nnn : Addr12} {h : s.sp.val < 16} (hin : Balanced (s.called nnn h) t) :
    ∃ u, exec .ret t = .next u ∧ u.pc = s.pc + 2 ∧ Balanced s u := by
  obtain ⟨pc, stack, rfl, hbelow⟩ := hin
  have htop : stack[s.sp.val] = s.pc := by
    simpa [State.called] using hbelow s.sp.val (by simp [State.called])
  refine ⟨(s.setStack stack s.sp).setPc (s.pc + 2), ?_, rfl, s.pc + 2, stack, rfl, fun k hk => ?_⟩
  · rw [exec_ret_of_entry (k := ⟨s.sp.val, h⟩) rfl, ← htop]
    rfl
  · have hne : s.sp.val ≠ k := by omega
    have hstack := hbelow k (by simp [State.called]; omega)
    simpa [State.called, Vector.getElem_set, hne] using hstack

/-- Calls that fit on the stack, followed by as many returns, are balanced and end two past the first call, if there is one. -/
theorem runInstrs_calls_returns (targets : List Addr12) (s : State) (hroom : s.sp.val + targets.length ≤ 16) :
    ∃ t, runInstrs (targets.map Instr.callNnn ++ List.replicate targets.length Instr.ret) s = .next t ∧
      (targets ≠ [] → t.pc = s.pc + 2) ∧ Balanced s t := by
  induction targets generalizing s with
  | nil => exact ⟨s, rfl, absurd rfl, balanced_refl s⟩
  | cons nnn targets ih =>
    rw [List.length_cons] at hroom
    have hlt : s.sp.val < 16 := by omega
    obtain ⟨t, hrun, -, hin⟩ := ih (s.called nnn hlt) (by simp [State.called]; omega)
    obtain ⟨u, hret, hpc, hout⟩ := hin.exec_ret
    refine ⟨u, ?_, fun _ => hpc, hout⟩
    calc runInstrs ((nnn :: targets).map Instr.callNnn ++ List.replicate (targets.length + 1) Instr.ret) s
      _ = runInstrs (targets.map Instr.callNnn ++ List.replicate targets.length Instr.ret ++ [Instr.ret])
            (s.called nnn hlt) := by
        simp [runInstrs, exec_callNnn_of_room s nnn hlt, List.replicate_succ']
      _ = .next u := by rw [runInstrs_append hrun, runInstrs_singleton, hret]

/-- Settles O22: by induction on the targets, each call and its return enclosing a balanced sequence. -/
theorem callsAndReturnsNest : Obligations.CallsAndReturnsNest := by
  intro targets s hne hroom
  obtain ⟨t, hrun, hpc, hbal⟩ := runInstrs_calls_returns targets s hroom
  exact ⟨t, hrun, hpc hne, hbal.sp, hbal.frames⟩

end Sys2Proof.Machine

/-! ## Which fatal condition an instruction raises (60_exceptions.md R191 to R194) -/

namespace Sys2Proof.Machine

/-- The fatal condition that an instruction raises in a state, if any: UNK by R191, SOV by R192, SUN by R193, AOB by R194. -/
def fatalCondition (s : State) : Instr → Option FatalCode
  | .unknownInstruction _ => some .unk
  | .callNnn _      => if s.sp.val = 16 then some .sov else none
  | .ret            => if s.sp.val = 0 then some .sun else none
  | .jpV0Nnn nnn    => if 4096 ≤ nnn.toNat + (s.reg 0).toNat then some .aob else none
  | .drwVxVyN _ _ n => if inRange (indexAddress s) n.toNat then none else some .aob
  | .ldBVx _        => if inRange (indexAddress s) 3 then none else some .aob
  | .ldMemVx x      => if inRange (indexAddress s) (x.val + 1) then none else some .aob
  | .ldVxMem x      => if inRange (indexAddress s) (x.val + 1) then none else some .aob
  | .cls | .jpNnn _ | .seVxNn _ _ | .sneVxNn _ _ | .seVxVy _ _ | .sneVxVy _ _ | .ldVxNn _ _ | .addVxNn _ _ | .ldVxVy _ _
  | .orVxVy _ _ | .andVxVy _ _ | .xorVxVy _ _ | .addVxVy _ _ | .subVxVy _ _ | .shrVx _ _ | .subnVxVy _ _ | .shlVx _ _
  | .ldINnn _ | .rndVxNn _ _ | .skpVx _ | .sknpVx _ | .ldVxDt _ | .ldVxK _ | .ldDtVx _ | .ldStVx _ | .addIVx _
  | .ldFVx _ => none

/-- ERR after a guard: each branch latches the code of the condition it raises, or leaves ERR as it was. -/
theorem err_ite {p : Prop} [Decidable p] {s t u : State} {ct cu : Option FatalCode}
    (ht : t.err = ct.elim s.err FatalCode.toError) (hu : u.err = cu.elim s.err FatalCode.toError) :
    (if p then t else u).err = (if p then ct else cu).elim s.err FatalCode.toError := by
  split
  · exact ht
  · exact hu

/-- ERR after an instruction: the code of the condition it raises, or ERR as it was. -/
theorem exec_err {i : Instr} {s t : State} (h : exec i s = .next t) :
    t.err = (fatalCondition s i).elim s.err FatalCode.toError := by
  cases i with
  -- the seven with a guard
  | ret => cases (exec_ret s).symm.trans h; exact err_ite rfl (State.popped_err s)
  | callNnn nnn => cases (exec_callNnn s nnn).symm.trans h; exact err_ite rfl (State.pushed_err s)
  | jpV0Nnn nnn => cases (exec_jpV0Nnn s nnn).symm.trans h; exact err_ite rfl rfl
  | drwVxVyN x y n => cases (exec_drwVxVyN s x y n).symm.trans h; exact err_ite rfl rfl
  | ldBVx x => cases (exec_ldBVx s x).symm.trans h; exact err_ite rfl rfl
  | ldMemVx x => cases (exec_ldMemVx s x).symm.trans h; exact err_ite rfl rfl
  | ldVxMem x => cases (exec_ldVxMem s x).symm.trans h; exact err_ite (State.blockLoaded_err s x) rfl
  -- the two whose bound check a 12-bit address always passes
  | jpNnn nnn => cases (exec_jpNnn s nnn).symm.trans h; rfl
  | ldINnn nnn => cases (exec_ldINnn s nnn).symm.trans h; rfl
  -- the unknown instruction, and those that can raise nothing
  | _ => cases h; rfl

@[simp] theorem FatalCode.toError_inj {c d : FatalCode} : c.toError = d.toError ↔ c = d := by
  cases c <;> cases d <;> simp [FatalCode.toError]

/-- An instruction brings a code into ERR exactly when it raises that condition. -/
theorem exec_err_eq_toError_iff {i : Instr} {s t : State} {c : FatalCode} (hs : s.err ≠ c.toError)
    (h : exec i s = .next t) : t.err = c.toError ↔ fatalCondition s i = some c := by
  rw [exec_err h]
  cases fatalCondition s i with
  | none => simpa using hs
  | some d => simp

/-- An instruction that brings a code into ERR does nothing else but halt the machine (60_exceptions.md R195). -/
theorem exec_eq_halt_of_err_eq {i : Instr} {s t : State} {c : FatalCode} (hs : s.err ≠ c.toError)
    (h : exec i s = .next t) (ht : t.err = c.toError) : t = s.halt c := by
  obtain ⟨u, hu, hkeeps⟩ := exec_next_keepsRunOrHalts i s
  obtain rfl : u = t := Host.Outcome.next.inj (hu.symm.trans h)
  rcases hkeeps with ⟨-, hsame⟩ | ⟨d, rfl⟩
  · exact absurd (hsame.symm.trans ht) hs
  · rw [FatalCode.toError_inj.1 ht]

theorem fatalCondition_eq_sov_iff (s : State) (i : Instr) :
    fatalCondition s i = some .sov ↔ (∃ nnn, i = .callNnn nnn) ∧ s.sp.val = 16 := by
  cases i <;> simp [fatalCondition]

theorem fatalCondition_eq_sun_iff (s : State) (i : Instr) :
    fatalCondition s i = some .sun ↔ i = .ret ∧ s.sp.val = 0 := by
  cases i <;> simp [fatalCondition]

/-- Settles O36: CALL is the one instruction whose fatal condition can be SOV, and the halt keeps SP and the stack. -/
theorem stackOverflowExactlyByTheFullCall : Obligations.StackOverflowExactlyByTheFullCall := by
  intro i s t hs h
  refine ⟨(exec_err_eq_toError_iff (c := .sov) hs h).trans (fatalCondition_eq_sov_iff s i), fun herr => ?_⟩
  obtain rfl := exec_eq_halt_of_err_eq (c := .sov) hs h herr
  exact ⟨rfl, rfl, rfl⟩

/-- Settles O37: RET is the one instruction whose fatal condition can be SUN. -/
theorem stackUnderflowExactlyByTheEmptyReturn : Obligations.StackUnderflowExactlyByTheEmptyReturn := by
  intro i s t hs h
  refine ⟨(exec_err_eq_toError_iff (c := .sun) hs h).trans (fatalCondition_eq_sun_iff s i), fun herr => ?_⟩
  obtain rfl := exec_eq_halt_of_err_eq (c := .sun) hs h herr
  rfl

end Sys2Proof.Machine

/-! ## The halted state and the ways out of it (60_exceptions.md R198) -/

namespace Sys2Proof.Machine

/-- What each operation of a run keeps, the run keeps. -/
theorem runHostOps_preserves {P : State → Prop} {ops : List HostOp}
    (hop : ∀ op ∈ ops, ∀ s, P s → ∃ t, op.apply s = .next t ∧ P t) {s : State} (hs : P s) :
    ∃ t, runHostOps ops s = .next t ∧ P t := by
  induction ops generalizing s with
  | nil => exact ⟨s, rfl, hs⟩
  | cons op ops ih =>
    obtain ⟨t, happly, ht⟩ := hop op (by simp) s hs
    obtain ⟨u, hrun, hu⟩ := ih (fun op' hmem => hop op' (by simp [hmem])) ht
    exact ⟨u, by simp only [runHostOps, happly, hrun], hu⟩

@[simp] theorem resolveWait_err (w : Word) (s : State) : (resolveWait w s).err = s.err := by
  rcases resolveWait_cases w s with h | ⟨k, -, -, h⟩ <;> simp [h]

@[simp] theorem keyUpdate_err (mask : Word) (s : State) : (keyUpdate mask s).err = s.err := by
  simp [keyUpdate, keyUpdateWith]

/-- On a halted machine every operation but Init and an accepted Load keeps RUNNING clear and ERR as it was. -/
theorem HostOp.apply_of_halted {op : HostOp} (hinit : op ≠ .init)
    (hload : ∀ bytes, op = .load bytes → loadAccepted bytes = false) {s : State} (hs : s.running = false) :
    ∃ t, op.apply s = .next t ∧ t.running = false ∧ t.err = s.err := by
  cases op with
  | init => exact absurd rfl hinit
  | load bytes => exact ⟨s, congrArg _ (load_of_rejected (hload bytes rfl) s), hs, rfl⟩
  | step => exact ⟨s, step_of_not_running hs, hs, rfl⟩
  | tick => exact ⟨_, rfl, hs, rfl⟩
  | keyUpdate mask => exact ⟨_, rfl, (keyUpdate_running mask s).trans hs, keyUpdate_err mask s⟩
  | ackFrame => exact ⟨_, rfl, hs, rfl⟩
  | observe e => exact ⟨s, rfl, hs, rfl⟩

/-- The draw counter is the model's own and no element shows it (log 3). -/
theorem observe_setRndDraws (e : Element) (s : State) (n : Nat) : observe e { s with rndDraws := n } = observe e s := by
  cases e <;> rfl

/-- Init discards every element of the state before it. -/
theorem observe_initialise (e : Element) (s : State) : observe e (initialise s) = observe e State.reset :=
  observe_setRndDraws e State.reset s.rndDraws

/-- An accepted Load gives the state that it gives after reset, but for the draw counter. -/
theorem load_of_accepted {bytes : List Byte} (h : loadAccepted bytes = true) (s : State) :
    load bytes s = { load bytes State.reset with rndDraws := s.rndDraws } := by
  simp [load, h, initialise]

/-- An accepted Load discards every element of the state before it. -/
theorem observe_load_of_accepted {bytes : List Byte} (h : loadAccepted bytes = true) (e : Element) (s : State) :
    observe e (load bytes s) = observe e (load bytes State.reset) := by
  rw [load_of_accepted h, observe_setRndDraws]

/-- Settles O45: no operation of the run leaves the halted state or changes ERR, and Load and Init each give every element the
value that they give it after reset. -/
theorem haltIsTerminalUntilRestart : Obligations.HaltIsTerminalUntilRestart := by
  refine ⟨fun s => step_of_not_running, ?stays, ?load, ?init⟩
  case stays =>
    intro ops s hs hops
    refine runHostOps_preserves (P := fun t => t.running = false ∧ t.err = s.err) ?_ ⟨hs, rfl⟩
    rintro op hmem u ⟨hu, herr⟩
    obtain ⟨hinit, hload⟩ := hops op hmem
    obtain ⟨t, happly, ht, hsame⟩ := HostOp.apply_of_halted hinit hload hu
    exact ⟨t, happly, ht, hsame.trans herr⟩
  case load =>
    intro s s' bytes e hacc
    exact ⟨(observe_load_of_accepted hacc e s).trans (observe_load_of_accepted hacc e s').symm,
      load_running_of_accepted hacc s⟩
  case init =>
    intro s s' e
    exact (observe_initialise e s).trans (observe_initialise e s').symm

end Sys2Proof.Machine

/-! ## The state after Load (70_reset_and_hazards.md R222 to R224) -/

namespace Sys2Proof.Machine

/-- After reset no pixel is lit (10_state.md R39). -/
theorem pixel_reset (px py : Nat) : Frame.pixel State.reset.fb px py = false := by
  simp only [Frame.pixel, State.reset]
  split <;> simp

/-- Every element has, in the reset state, the value of the "after `Init`" column of 10_state.md R39. -/
theorem observe_reset (e : Element) : observe e State.reset = initValue e := by
  cases e with
  | v x => simp [observe, initValue, State.reg, State.reset]
  | stack k => simp [observe, initValue, State.reset]
  | key k => simp [observe, initValue, State.reset]
  | pixel px py => simp [observe, initValue, pixel_reset]
  | _ => rfl

/-- An accepted Load gives every element the value of R223: memory reads the bytes inside the program and the reset contents
outside it, RUNNING and ERR are written, and every other element is as after Init. -/
theorem observe_load {bytes : List Byte} (h : loadAccepted bytes = true) (s : State) (e : Element) :
    observe e (load bytes s) = loadValue bytes e := by
  have hinit := (observe_initialise e s).trans (observe_reset e)
  rw [load, if_pos h]
  cases e with
  | running | err => rfl
  | mem a =>
    simp only [observe, loadValue, Memory.read_writeBytes]
    split <;> rfl
  | _ => exact hinit

theorem loadAccepted_iff (bytes : List Byte) :
    loadAccepted bytes = true ↔ 1 ≤ bytes.length ∧ bytes.length ≤ 3584 :=
  decide_eq_true_iff

theorem loadAccepted_eq_false_iff (bytes : List Byte) :
    loadAccepted bytes = false ↔ bytes.length = 0 ∨ 3584 < bytes.length := by
  rw [← Bool.not_eq_true, loadAccepted_iff]
  omega

theorem HostOp.reply_load_of_accepted {bytes : List Byte} (h : loadAccepted bytes = true) (s : State) :
    HostOp.reply (.load bytes) s = .accepted := if_pos h

theorem HostOp.reply_load_of_rejected {bytes : List Byte} (h : loadAccepted bytes = false) (s : State) :
    HostOp.reply (.load bytes) s = .rejected := if_neg (by simp [h])

/-- Settles O40: the two ranges of lengths are the two answers of `loadAccepted`; an accepted Load is `observe_load`, a
rejected one `load_of_rejected`. -/
theorem loadPlacesTheProgramOrChangesNothing : Obligations.LoadPlacesTheProgramOrChangesNothing := by
  intro s bytes
  refine ⟨fun hlen => ?accepted, fun hlen => ?rejected⟩
  case accepted =>
    have hacc := (loadAccepted_iff bytes).2 hlen
    exact ⟨HostOp.reply_load_of_accepted hacc s, load bytes s, rfl, observe_load hacc s⟩
  case rejected =>
    have hrej := (loadAccepted_eq_false_iff bytes).2 hlen
    exact ⟨HostOp.reply_load_of_rejected hrej s, congrArg _ (load_of_rejected hrej s)⟩

end Sys2Proof.Machine

/-! ## Decoding and encoding (30_encoding.md R73 to R80) -/

namespace Sys2Proof

/-! ### A word from its fields -/

theorem nibbles_fields (op : Word) : nibbles (fieldG op) (fieldX op) (fieldY op) (fieldN op) = op := by
  apply BitVec.eq_of_toNat_eq
  rw [nibbles_toNat, fieldG_toNat, fieldX_val, fieldY_val, fieldN_toNat]
  omega

theorem formatA_fields (op : Word) : formatA (fieldG op) (fieldNNN op) = op := by
  apply BitVec.eq_of_toNat_eq
  rw [formatA_toNat, fieldG_toNat, fieldNNN_toNat]
  omega

theorem formatXB_fields (op : Word) : formatXB (fieldG op) (fieldX op) (fieldNN op) = op := by
  apply BitVec.eq_of_toNat_eq
  rw [formatXB_toNat, fieldG_toNat, fieldX_val, fieldNN_toNat]
  omega

theorem fieldNN_toNat_eq (op : Word) : (fieldNN op).toNat = (fieldY op).val * 16 + (fieldN op).toNat := by
  rw [fieldNN_toNat, fieldY_val, fieldN_toNat]
  omega

/-! ### The opcode map's masks and the fields they keep -/

section
variable {op : Word}

theorem fieldG_of_mask {bits : Word} (h : op &&& 0xF000 = bits) : (fieldG op).toNat = (fieldG bits).toNat := by
  rw [← h, mask_F000, fieldG_nibbles]

theorem fields_of_mask {bits : Word} (h : op &&& 0xF00F = bits) :
    (fieldG op).toNat = (fieldG bits).toNat ∧ (fieldN op).toNat = (fieldN bits).toNat := by
  rw [← h, mask_F00F, fieldG_nibbles, fieldN_nibbles]
  exact ⟨rfl, rfl⟩

theorem functionFields_of_mask {bits : Word} (h : op &&& 0xF0FF = bits) :
    (fieldG op).toNat = (fieldG bits).toNat ∧ (fieldY op).val = (fieldY bits).val ∧
      (fieldN op).toNat = (fieldN bits).toNat := by
  have := (fieldN op).isLt
  rw [← h, mask_F0FF, fieldG_formatXB, fieldY_formatXB, fieldN_formatXB, fieldNN_toNat_eq]
  omega

theorem mask_of_fieldG {k : Nat} (hg : (fieldG op).toNat = k) : op &&& 0xF000 = BitVec.ofNat 16 (k * 4096) := by
  apply BitVec.eq_of_toNat_eq
  rw [mask_F000, nibbles_toNat, hg]
  simp
  omega

theorem mask_of_fields {k l : Nat} (hg : (fieldG op).toNat = k) (hn : (fieldN op).toNat = l) :
    op &&& 0xF00F = BitVec.ofNat 16 (k * 4096 + l) := by
  apply BitVec.eq_of_toNat_eq
  rw [mask_F00F, nibbles_toNat, hg, hn]
  simp
  omega

theorem mask_of_functionFields {k l m : Nat} (hg : (fieldG op).toNat = k) (hy : (fieldY op).val = m)
    (hn : (fieldN op).toNat = l) : op &&& 0xF0FF = BitVec.ofNat 16 (k * 4096 + (m * 16 + l)) := by
  apply BitVec.eq_of_toNat_eq
  rw [mask_F0FF, formatXB_toNat, fieldNN_toNat_eq, hg, hy, hn]
  simp
  omega

/-! ### A word whose fixed bits are those of a canonical pattern is the word with its own operands -/

theorem formatA_of_group {g : Nibble} (hg : (fieldG op).toNat = g.toNat) : formatA g (fieldNNN op) = op := by
  rw [← BitVec.eq_of_toNat_eq hg, formatA_fields]

theorem formatXB_of_group {g : Nibble} (hg : (fieldG op).toNat = g.toNat) :
    formatXB g (fieldX op) (fieldNN op) = op := by
  rw [← BitVec.eq_of_toNat_eq hg, formatXB_fields]

theorem nibbles_of_group {g : Nibble} (hg : (fieldG op).toNat = g.toNat) :
    nibbles g (fieldX op) (fieldY op) (fieldN op) = op := by
  rw [← BitVec.eq_of_toNat_eq hg, nibbles_fields]

theorem nibbles_of_mask {g n : Nibble} (h : op &&& 0xF00F = nibbles g 0 0 n) :
    nibbles g (fieldX op) (fieldY op) n = op := by
  obtain ⟨hg, hn⟩ := fields_of_mask h
  rw [fieldG_nibbles] at hg
  rw [fieldN_nibbles] at hn
  rw [← BitVec.eq_of_toNat_eq hn, nibbles_of_group hg]

theorem formatXB_of_mask {g : Nibble} {nn : Byte} (h : op &&& 0xF0FF = formatXB g 0 nn) :
    formatXB g (fieldX op) nn = op := by
  rw [mask_F0FF] at h
  have hg : fieldG op = g := by simpa using congrArg fieldG h
  have hnn : fieldNN op = nn := by simpa using congrArg fieldNN h
  rw [← hg, ← hnn, formatXB_fields]

/-- The rows of CLS and RET fix the whole word. -/
theorem eq_of_full_mask {bits : Word} (h : op &&& 0xFFFF = bits) : bits = op :=
  h.symm.trans BitVec.and_allOnes

end

/-! ### Encoded words decode -/

/-- Settles O1: eighteen fixed words, each decoded by evaluation. -/
theorem wordsDecodeAsTheirPatterns : Obligations.WordsDecodeAsTheirPatterns := by
  simp only [Obligations.WordsDecodeAsTheirPatterns, decode_two, Except.ok.injEq, Prod.mk.injEq, and_true]
  decide

/-- Not an unknown word: one of the 34 instructions. -/
def Instr.known (i : Instr) : Prop := ∀ op, i ≠ .unknownInstruction op

theorem Instr.known_or_unknown (i : Instr) : i.known ∨ ∃ op, i = .unknownInstruction op := by
  by_cases h : ∃ op, i = .unknownInstruction op
  · exact .inr h
  · exact .inl fun op hi => h ⟨op, hi⟩

/-- The dispatch tree reads every instruction back from its word. -/
theorem decodeTree_encode {i : Instr} (h : i.known) : decodeTree (encode i) = i := by
  cases i with
  | unknownInstruction op => exact absurd rfl (h op)
  | cls | ret => decide
  | _ =>
    simp [encode, decodeTree, decodeGroup8, decodeGroupE, decodeGroupF, decodeGroupF5, fieldY_formatXB, fieldN_formatXB]

/-- The word of every instruction passes the masks of its row. -/
theorem encode_matches_row (i : Instr) : Laws.EncodesItsRow.Statement i := by
  cases i with
  | cls => exact Laws.EncodesItsRow.cls
  | ret => exact Laws.EncodesItsRow.ret
  | jpNnn nnn => exact Laws.EncodesItsRow.jpNnn nnn
  | callNnn nnn => exact Laws.EncodesItsRow.callNnn nnn
  | seVxNn x nn => exact Laws.EncodesItsRow.seVxNn x nn
  | sneVxNn x nn => exact Laws.EncodesItsRow.sneVxNn x nn
  | seVxVy x y => exact Laws.EncodesItsRow.seVxVy x y
  | ldVxNn x nn => exact Laws.EncodesItsRow.ldVxNn x nn
  | addVxNn x nn => exact Laws.EncodesItsRow.addVxNn x nn
  | ldVxVy x y => exact Laws.EncodesItsRow.ldVxVy x y
  | orVxVy x y => exact Laws.EncodesItsRow.orVxVy x y
  | andVxVy x y => exact Laws.EncodesItsRow.andVxVy x y
  | xorVxVy x y => exact Laws.EncodesItsRow.xorVxVy x y
  | addVxVy x y => exact Laws.EncodesItsRow.addVxVy x y
  | subVxVy x y => exact Laws.EncodesItsRow.subVxVy x y
  | shrVx x y => exact Laws.EncodesItsRow.shrVx x y
  | subnVxVy x y => exact Laws.EncodesItsRow.subnVxVy x y
  | shlVx x y => exact Laws.EncodesItsRow.shlVx x y
  | sneVxVy x y => exact Laws.EncodesItsRow.sneVxVy x y
  | ldINnn nnn => exact Laws.EncodesItsRow.ldINnn nnn
  | jpV0Nnn nnn => exact Laws.EncodesItsRow.jpV0Nnn nnn
  | rndVxNn x nn => exact Laws.EncodesItsRow.rndVxNn x nn
  | drwVxVyN x y n => exact Laws.EncodesItsRow.drwVxVyN x y n
  | skpVx x => exact Laws.EncodesItsRow.skpVx x
  | sknpVx x => exact Laws.EncodesItsRow.sknpVx x
  | ldVxDt x => exact Laws.EncodesItsRow.ldVxDt x
  | ldVxK x => exact Laws.EncodesItsRow.ldVxK x
  | ldDtVx x => exact Laws.EncodesItsRow.ldDtVx x
  | ldStVx x => exact Laws.EncodesItsRow.ldStVx x
  | addIVx x => exact Laws.EncodesItsRow.addIVx x
  | ldFVx x => exact Laws.EncodesItsRow.ldFVx x
  | ldBVx x => exact Laws.EncodesItsRow.ldBVx x
  | ldMemVx x => exact Laws.EncodesItsRow.ldMemVx x
  | ldVxMem x => exact Laws.EncodesItsRow.ldVxMem x
  | unknownInstruction op => exact Laws.EncodesItsRow.unknownInstruction op

theorem passesCanonicalMask_encode (i : Instr) : passesCanonicalMask (encode i) i = true := by
  unfold passesCanonicalMask
  split
  · next r hr => simpa using (encode_matches_row i r hr).2
  · rfl

/-! ### The words that decode to nothing (30_encoding.md R76) -/

theorem hexDigit_zero (op : Word) : hexDigit op 0 = (fieldN op).toNat := by
  simp [hexDigit, fieldN_toNat]

theorem hexDigit_one (op : Word) : hexDigit op 1 = (fieldY op).val := by
  simp [hexDigit, fieldY_val]

theorem hexDigit_three (op : Word) : hexDigit op 3 = (fieldG op).toNat := by
  simp [hexDigit, fieldG_toNat]

theorem decodeGroup0_eq_unknown_iff (op : Word) :
    decodeGroup0 op = .unknownInstruction op ↔ (fieldN op).toNat ∉ [0x0, 0xE] := by
  have hn := (fieldN op).isLt
  unfold decodeGroup0
  generalize (fieldN op).toNat = n at hn ⊢
  interval_cases n <;> simp

theorem decodeGroup8_eq_unknown_iff (op : Word) :
    decodeGroup8 op = .unknownInstruction op ↔ (fieldN op).toNat ∈ [0x8, 0x9, 0xA, 0xB, 0xC, 0xD, 0xF] := by
  have hn := (fieldN op).isLt
  unfold decodeGroup8
  generalize (fieldN op).toNat = n at hn ⊢
  interval_cases n <;> simp

theorem decodeGroupE_eq_unknown_iff (op : Word) :
    decodeGroupE op = .unknownInstruction op ↔ (fieldN op).toNat ∉ [0x1, 0xE] := by
  have hn := (fieldN op).isLt
  unfold decodeGroupE
  generalize (fieldN op).toNat = n at hn ⊢
  interval_cases n <;> simp

theorem decodeGroupF5_eq_unknown_iff (op : Word) :
    decodeGroupF5 op = .unknownInstruction op ↔ (fieldY op).val ∉ [0x1, 0x5, 0x6] := by
  have hy := (fieldY op).isLt
  unfold decodeGroupF5
  generalize (fieldY op).val = y at hy ⊢
  interval_cases y <;> simp

theorem decodeGroupF_eq_unknown_iff (op : Word) :
    decodeGroupF op = .unknownInstruction op ↔
      (fieldN op).toNat ∈ [0x0, 0x1, 0x2, 0x4, 0x6, 0xB, 0xC, 0xD, 0xF] ∨
      ((fieldN op).toNat = 0x5 ∧ (fieldY op).val ∉ [0x1, 0x5, 0x6]) := by
  have hn := (fieldN op).isLt
  unfold decodeGroupF
  rw [← decodeGroupF5_eq_unknown_iff]
  generalize (fieldN op).toNat = n at hn ⊢
  interval_cases n <;> simp

/-- The five patterns, one per group that has undecodable words, are what the dispatch tree leaves over. -/
theorem illegalWord_iff_decodeTree (op : Word) : illegalWord op = true ↔ decodeTree op = .unknownInstruction op := by
  have hg := (fieldG op).isLt
  simp only [illegalWord, decodeTree, hexDigit_zero, hexDigit_one, hexDigit_three]
  generalize (fieldG op).toNat = g at hg ⊢
  -- each group with undecodable words by its own lemma; the other twelve have none
  interval_cases g <;>
    simp [decodeGroup0_eq_unknown_iff, decodeGroup8_eq_unknown_iff, decodeGroupE_eq_unknown_iff,
      decodeGroupF_eq_unknown_iff]

/-! ### What a decoded word has in common with its row and with the instruction's own word -/

/-- `i` is what the decoder reads from `op`: the word passes the mask of the row of `i`, and, if it has the fixed bits of
the canonical pattern too, it is the word of `i`. -/
structure ReadFrom (op : Word) (i : Instr) : Prop where
  matches_row : ∀ r, opcodeRow i = some r → op &&& r.mask = r.bits
  reencodes : passesCanonicalMask op i = true → encode i = op

theorem readFrom_unknown (op : Word) : ReadFrom op (.unknownInstruction op) := ⟨fun _ h => (nomatch h), fun _ => rfl⟩

theorem readFrom_of_row {op : Word} {i : Instr} {r : OpcodeRow} (hr : opcodeRow i = some r) (hm : op &&& r.mask = r.bits)
    (hc : op &&& r.canonicalMask = r.canonicalBits → encode i = op) : ReadFrom op i := by
  refine ⟨fun r' hr' => ?_, fun hpass => hc ?_⟩
  · obtain rfl : r = r' := Option.some.inj (hr.symm.trans hr')
    exact hm
  · simpa [passesCanonicalMask, hr] using hpass

theorem readFrom_decodeGroup0 {op : Word} (hg : (fieldG op).toNat = 0x0) : ReadFrom op (decodeGroup0 op) := by
  unfold decodeGroup0
  split
  case h_1 hn | h_2 hn => exact readFrom_of_row rfl (mask_of_fields hg hn :) eq_of_full_mask
  case h_3 => exact readFrom_unknown op

theorem readFrom_decodeGroup8 {op : Word} (hg : (fieldG op).toNat = 0x8) : ReadFrom op (decodeGroup8 op) := by
  unfold decodeGroup8
  dsimp only
  split
  case h_10 => exact readFrom_unknown op
  all_goals
    next hn => exact readFrom_of_row rfl (mask_of_fields hg hn :) fun h => nibbles_of_mask h

theorem readFrom_decodeGroupE {op : Word} (hg : (fieldG op).toNat = 0xE) : ReadFrom op (decodeGroupE op) := by
  unfold decodeGroupE
  split
  case h_1 hn | h_2 hn => exact readFrom_of_row rfl (mask_of_fields hg hn :) fun h => formatXB_of_mask h
  case h_3 => exact readFrom_unknown op

theorem readFrom_decodeGroupF5 {op : Word} (hg : (fieldG op).toNat = 0xF) (hn : (fieldN op).toNat = 0x5) :
    ReadFrom op (decodeGroupF5 op) := by
  unfold decodeGroupF5
  split
  case h_4 => exact readFrom_unknown op
  all_goals
    next hy => exact readFrom_of_row rfl (mask_of_functionFields hg hy hn :) fun h => formatXB_of_mask h

theorem readFrom_decodeGroupF {op : Word} (hg : (fieldG op).toNat = 0xF) : ReadFrom op (decodeGroupF op) := by
  unfold decodeGroupF
  dsimp only
  split
  case h_2 hn => exact readFrom_decodeGroupF5 hg hn
  case h_8 => exact readFrom_unknown op
  all_goals
    next hn => exact readFrom_of_row rfl (mask_of_fields hg hn :) fun h => formatXB_of_mask h

/-- The leaves of the dispatch tree, by level: each tests exactly its row's mask, and reads its operands from the word. -/
theorem readFrom_decodeTree (op : Word) : ReadFrom op (decodeTree op) := by
  unfold decodeTree
  split
  -- the groups with a second level
  case h_1 hg => exact readFrom_decodeGroup0 hg
  case h_9 hg => exact readFrom_decodeGroup8 hg
  case h_15 hg => exact readFrom_decodeGroupE hg
  case h_16 =>
    have hlt := (fieldG op).isLt
    simp only [imp_false] at *
    have hg : (fieldG op).toNat = 0xF := by omega
    exact readFrom_decodeGroupF hg
  -- the rows that are a whole group, by format
  case h_2 hg | h_3 hg | h_11 hg | h_12 hg =>
    exact readFrom_of_row rfl (mask_of_fieldG hg :) fun _ => formatA_of_group hg
  case h_4 hg | h_5 hg | h_7 hg | h_8 hg | h_13 hg =>
    exact readFrom_of_row rfl (mask_of_fieldG hg :) fun _ => formatXB_of_group hg
  case h_6 hg | h_10 hg => exact readFrom_of_row rfl (mask_of_fieldG hg :) fun h => nibbles_of_mask h
  case h_14 hg => exact readFrom_of_row rfl (mask_of_fieldG hg :) fun _ => nibbles_of_group hg

/-- A word that passes a row's mask decodes to an instruction of that row. -/
theorem opcodeRow_decodeTree_of_match {op : Word} {i : Instr} {r : OpcodeRow} (hr : opcodeRow i = some r)
    (hm : op &&& r.mask = r.bits) : opcodeRow (decodeTree op) = some r := by
  cases i <;> cases hr
  -- the rows of level 3
  case ldDtVx.refl | ldMemVx.refl | ldVxMem.refl =>
    obtain ⟨hg, hy, hn⟩ := functionFields_of_mask hm
    simp only [decodeTree, hg, decodeGroupF, hn, decodeGroupF5, hy]
    rfl
  -- the rows of level 1
  case jpNnn.refl | callNnn.refl | seVxNn.refl | sneVxNn.refl | seVxVy.refl | ldVxNn.refl | addVxNn.refl | sneVxVy.refl
      | ldINnn.refl | jpV0Nnn.refl | rndVxNn.refl | drwVxVyN.refl =>
    simp only [decodeTree, fieldG_of_mask hm]
    rfl
  -- the rows of level 2
  all_goals
    obtain ⟨hg, hn⟩ := fields_of_mask hm
    simp only [decodeTree, hg, decodeGroup0, decodeGroup8, decodeGroupE, decodeGroupF, hn]
    rfl

/-- Settles O3: a word that the strict decoder keeps has the fixed bits of its row, and `ReadFrom` re-encodes it; any
other word is held by the unknown instruction. -/
theorem strictDecodingDropsNoBit : Obligations.StrictDecodingDropsNoBit := by
  intro op
  simp only [decodeWordWith, Bool.true_and]
  split
  · rfl
  · next h => exact (readFrom_decodeTree op).reencodes (by simpa using h)

/-- The words of the 34 instructions have the bits that their patterns print (30_encoding.md R78). -/
theorem canonicalBits_encode {i : Instr} (h : i.known) : canonicalBits (encode i) = true := by
  cases i with
  | unknownInstruction op => exact absurd rfl (h op)
  | cls | ret => decide
  | _ => simp [canonicalBits, hexDigit_zero, hexDigit_three, encode, ← fieldNN_toNat]

theorem decodeWordWith_encode {i : Instr} (strict : Bool) (h : i.known) : decodeWordWith strict (encode i) = i := by
  simp [decodeWordWith, decodeTree_encode h, passesCanonicalMask_encode]

/-- A word decodes to an instruction, or to the unknown instruction that holds it. -/
theorem decodeTree_known_or (op : Word) : (decodeTree op).known ∨ decodeTree op = .unknownInstruction op := by
  cases h : decodeTree op with
  | unknownInstruction op' =>
    have := (readFrom_decodeTree op).reencodes (by rw [h]; rfl)
    rw [h] at this
    exact .inr (congrArg _ this)
  | _ => exact .inl (by simp [Instr.known])

/-- An illegal word is left over by the tree; a word whose bits are not canonical fails the canonical mask. -/
theorem decodeWordWith_of_illegal {strict : Bool} {op : Word} (h : illegalWordWith strict op = true) :
    decodeWordWith strict op = .unknownInstruction op := by
  rcases decodeTree_known_or op with hk | hu
  · have hnot : illegalWord op = false := by
      rw [← Bool.not_eq_true, illegalWord_iff_decodeTree]
      exact hk op
    have hbits : strict = true ∧ canonicalBits op = false := by simpa [illegalWordWith, hnot] using h
    have hfails : passesCanonicalMask op (decodeTree op) = false := by
      by_contra hpass
      have := canonicalBits_encode hk
      rw [(readFrom_decodeTree op).reencodes (by simpa using hpass)] at this
      simp [this] at hbits
    simp [decodeWordWith, hbits, hfails]
  · simp [decodeWordWith, hu]

theorem decodeWordWith_encode_of_wellFormed {strict : Bool} {i : Instr} (h : i.wellFormedWith strict = true) :
    decodeWordWith strict (encode i) = i := by
  rcases i.known_or_unknown with hk | ⟨op, rfl⟩
  · exact decodeWordWith_encode strict hk
  · exact decodeWordWith_of_illegal h

/-- Settles O2: an instruction's word decodes by the dispatch tree and passes its canonical mask; an unknown word is
illegal, or its bits are not canonical and the strict decoder refuses them. The two bytes join to the word. -/
theorem decodeOfEncodeIsTheInstruction : Obligations.DecodeOfEncodeIsTheInstruction := by
  refine ⟨fun strict i => decodeWordWith_encode_of_wellFormed, fun i hwf => ?_⟩
  rw [encodeBytes, decode_two, joinBytes_highByte_lowByte, decodeWord]
  exact congrArg (fun j => Except.ok (j, [])) (decodeWordWith_encode_of_wellFormed (strict := false) hwf)

/-- Settles O4: `ReadFrom` gives the mask, and a word under the mask takes the row's branch of the dispatch tree. -/
theorem wordBelongsToRowExactlyByMask : Obligations.WordBelongsToRowExactlyByMask := by
  intro op i r hr
  rw [decodeWord_eq]
  exact ⟨(readFrom_decodeTree op).matches_row r, opcodeRow_decodeTree_of_match hr⟩

/-- Settles O5: the illegal patterns are what the dispatch tree leaves over, and no other decoded instruction has a check. -/
theorem unknownExactlyTheIllegalPatterns : Obligations.UnknownExactlyTheIllegalPatterns := by
  intro op
  refine ⟨illegalWord_iff_decodeTree op, ?_⟩
  rw [decodeWord_eq]
  rcases decodeTree_known_or op with hk | hu
  · cases h : decodeTree op with
    | unknownInstruction op' => exact absurd h (hk op')
    | _ => rfl
  · simp [hu, Instr.wellFormed, Instr.wellFormedWith, illegalWordWith, (illegalWord_iff_decodeTree op).2 hu]

/-! ### The assembler's lines (30_encoding.md R79, R80) -/

/-- The line of an instruction names it. -/
theorem parseLine_disassemble {i : Instr} (h : i.known) :
    Machine.parseLine (Machine.disassemble i) = some i := by
  cases i with
  | shrVx x y | shlVx x y => by_cases hy : y = 0 <;> simp [Machine.disassemble, Machine.parseLine, hy]
  | unknownInstruction op => exact absurd rfl (h op)
  | _ => rfl

theorem mnemonic_disassemble_ne_db {i : Instr} (h : i.known) : (Machine.disassemble i).mnemonic ≠ .db := by
  cases i with
  | unknownInstruction op => exact absurd rfl (h op)
  | _ => simp [Machine.disassemble]

theorem assembleLine_of_ne_db {l : Machine.AsmLine} (h : l.mnemonic ≠ .db) :
    Machine.assembleLine l = (Machine.parseLine l).map encodeBytes := by
  unfold Machine.assembleLine
  split
  · contradiction
  · rfl

/-- Settles O6: the line of an instruction parses back to it and is no data line; an unknown word's line is its two bytes. -/
theorem assemblingTheDisassemblyGivesTheBytes : Obligations.AssemblingTheDisassemblyGivesTheBytes := by
  intro i
  refine ⟨?_, parseLine_disassemble⟩
  rcases i.known_or_unknown with hk | ⟨op, rfl⟩
  · rw [assembleLine_of_ne_db (mnemonic_disassemble_ne_db hk), parseLine_disassemble hk]
    rfl
  · rfl

end Sys2Proof

/-! ## What an instruction leaves unchanged -/

namespace Sys2Proof.Machine

/-! ### One rule per update: it adds the element it writes to those that may differ -/

theorem Unchanged.refl {W : Element → Prop} (s : State) : Unchanged W s s := fun _ _ => rfl

theorem Unchanged.trans {W : Element → Prop} {s t u : State} (h : Unchanged W s t) (h' : Unchanged W t u) :
    Unchanged W s u :=
  fun e he => (h' e he).trans (h e he)

theorem Unchanged.mono {W W' : Element → Prop} {s t : State} (h : Unchanged W s t) (hW : ∀ e, W e → W' e) :
    Unchanged W' s t :=
  fun e he => h e fun hw => he (hW e hw)

section
variable {W : Element → Prop} {s t : State}

/-- A further update changes nothing but elements that may differ already. -/
theorem Unchanged.extend (h : Unchanged W s t) {u : State} (hu : ∀ e, W e ∨ observe e u = observe e t) :
    Unchanged W s u :=
  fun e he => ((hu e).resolve_left he).trans (h e he)

theorem Unchanged.writeReg (h : Unchanged W s t) {x : Reg} {b : Byte} (hx : W (.v x)) :
    Unchanged W s (t.writeReg x b) :=
  h.extend fun e => by
    cases e with
    | v y =>
      by_cases hy : y = x
      · exact .inl (hy ▸ hx)
      · exact .inr (by simp [observe, hy])
    | _ => exact .inr rfl

theorem Unchanged.setPc (h : Unchanged W s t) {w : Word} (hpc : W .pc) :
    Unchanged W s (t.setPc w) :=
  h.extend fun e => by
    cases e with
    | pc => exact .inl hpc
    | _ => exact .inr rfl

theorem Unchanged.advance (h : Unchanged W s t) (hpc : W .pc) : Unchanged W s t.advance := h.setPc hpc

theorem Unchanged.setI (h : Unchanged W s t) {w : Word} (hi : W .i) :
    Unchanged W s (t.setI w) :=
  h.extend fun e => by
    cases e with
    | i => exact .inl hi
    | _ => exact .inr rfl

theorem Unchanged.setDt (h : Unchanged W s t) {b : Byte} (hdt : W .dt) :
    Unchanged W s (t.setDt b) :=
  h.extend fun e => by
    cases e with
    | dt => exact .inl hdt
    | _ => exact .inr rfl

theorem Unchanged.setSt (h : Unchanged W s t) {b : Byte} (hst : W .st) :
    Unchanged W s (t.setSt b) :=
  h.extend fun e => by
    cases e with
    | st => exact .inl hst
    | _ => exact .inr rfl

theorem Unchanged.setWait (h : Unchanged W s t) {b : Bool} (hwait : W .wait) :
    Unchanged W s (t.setWait b) :=
  h.extend fun e => by
    cases e with
    | wait => exact .inl hwait
    | _ => exact .inr rfl

theorem Unchanged.clearDraw (h : Unchanged W s t) (hdraw : W .draw) :
    Unchanged W s t.clearDraw :=
  h.extend fun e => by
    cases e with
    | draw => exact .inl hdraw
    | _ => exact .inr rfl

theorem Unchanged.setKeys (h : Unchanged W s t) {w : Word} (hkeys : ∀ k, W (.key k)) :
    Unchanged W s (t.setKeys w) :=
  h.extend fun e => by
    cases e with
    | key k => exact .inl (hkeys k)
    | _ => exact .inr rfl

theorem Unchanged.latchOpcode (h : Unchanged W s t) {w : Word} (hop : W .opcode) :
    Unchanged W s (t.latchOpcode w) :=
  h.extend fun e => by
    cases e with
    | opcode => exact .inl hop
    | _ => exact .inr rfl

theorem Unchanged.showFrame (h : Unchanged W s t) {fb : Frame} (hpix : ∀ px py, W (.pixel px py)) (hdraw : W .draw) :
    Unchanged W s (t.showFrame fb) :=
  h.extend fun e => by
    cases e with
    | pixel px py => exact .inl (hpix px py)
    | draw => exact .inl hdraw
    | _ => exact .inr rfl

theorem Unchanged.halt (h : Unchanged W s t) {c : FatalCode} (herr : W .err) (hrun : W .running) :
    Unchanged W s (t.halt c) :=
  h.extend fun e => by
    cases e with
    | err => exact .inl herr
    | running => exact .inl hrun
    | _ => exact .inr rfl

theorem Unchanged.setStack (h : Unchanged W s t) {stack : Vector Word 16} {sp : Fin 17}
    (hstack : ∀ k : Fin 16, W (.stack k) ∨ stack[k] = t.stack[k]) (hsp : W .sp) :
    Unchanged W s (t.setStack stack sp) :=
  h.extend fun e => by
    cases e with
    | stack k => exact (hstack k).imp_right (congrArg BitVec.toNat)
    | sp => exact .inl hsp
    | _ => exact .inr rfl

theorem Unchanged.writeBytes (h : Unchanged W s t) {start : Nat} {bs : List Byte}
    (hmem : ∀ e, storedTo start bs.length e → W e) : Unchanged W s (t.setMem (t.mem.writeBytes start bs)) :=
  h.extend fun e => by
    cases e with
    | mem a =>
      by_cases hin : start ≤ a.val ∧ a.val < start + bs.length
      · exact .inl (hmem _ ⟨a, rfl, hin⟩)
      · exact .inr (by simp [observe, Memory.read_writeBytes, hin])
    | _ => exact .inr rfl

theorem Unchanged.blockLoaded (h : Unchanged W s t) {x : Reg} (hreg : ∀ k : Reg, k.val ≤ x.val → W (.v k)) :
    Unchanged W s (t.blockLoaded x) :=
  h.extend fun e => by
    cases e with
    | v y =>
      by_cases hy : y.val ≤ x.val
      · exact .inl (hreg y hy)
      · exact .inr (by simp [observe, blockLoaded_reg, hy])
    | _ => rw [blockLoaded_eq]; exact .inr rfl

end

/-! ### The elements an instruction writes when it raises no fatal condition -/

/-- The elements that `i`, executed in `s`, may write unless it halts the machine: its row of 10_state.md R36. -/
def written (s : State) : Instr → Element → Prop
  | .cls => fun e => isPixel e ∨ e ∈ [Element.draw, .pc]
  | .ret => oneOf [.sp, .pc]
  | .callNnn _ => fun e => e ∈ [Element.sp, .pc] ∨ ∃ k : Fin 16, s.sp.val = k.val ∧ e = .stack k
  | .jpNnn _ | .jpV0Nnn _ | .seVxNn _ _ | .sneVxNn _ _ | .seVxVy _ _ | .sneVxVy _ _ | .skpVx _ | .sknpVx _ => oneOf [.pc]
  | .ldVxNn x _ | .addVxNn x _ | .ldVxVy x _ | .orVxVy x _ | .andVxVy x _ | .xorVxVy x _ | .rndVxNn x _ | .ldVxDt x =>
    oneOf [.v x, .pc]
  | .addVxVy x _ | .subVxVy x _ | .shrVx x _ | .subnVxVy x _ | .shlVx x _ => oneOf [.v x, .v flagReg, .pc]
  | .drwVxVyN _ _ _ => fun e => isPixel e ∨ e ∈ [Element.v flagReg, .draw, .pc]
  | .ldVxK _ => oneOf [.wait, .pc]
  | .ldDtVx _ => oneOf [.dt, .pc]
  | .ldStVx _ => oneOf [.st, .pc]
  | .ldINnn _ | .ldFVx _ => oneOf [.i, .pc]
  | .addIVx _ => oneOf [.i, .v flagReg, .pc]
  | .ldBVx _ => fun e => storedTo (indexAddress s) 3 e ∨ e = .pc
  | .ldMemVx x => fun e => storedTo (indexAddress s) (x.val + 1) e ∨ e ∈ [Element.i, .pc]
  | .ldVxMem x => fun e => (∃ k : Reg, k.val ≤ x.val ∧ e = .v k) ∨ e ∈ [Element.i, .pc]
  | .unknownInstruction _ => fun _ => False

/-- An instruction that raises a fatal condition answers the halted state. -/
theorem exec_of_fatalCondition {i : Instr} {s : State} {c : FatalCode} (hc : fatalCondition s i = some c) :
    exec i s = .next (s.halt c) := by
  cases i with
  | unknownInstruction op => cases hc; rfl
  | ret => rw [exec_ret]; simp_all [fatalCondition]
  | callNnn nnn => rw [exec_callNnn]; simp_all [fatalCondition]
  | jpV0Nnn nnn => rw [exec_jpV0Nnn]; simp_all [fatalCondition]
  | drwVxVyN x y n => rw [exec_drwVxVyN]; simp_all [fatalCondition]
  | ldBVx x => rw [exec_ldBVx]; simp_all [fatalCondition]
  | ldMemVx x => rw [exec_ldMemVx]; simp_all [fatalCondition]
  | ldVxMem x => rw [exec_ldVxMem]; simp_all [fatalCondition]
  | _ => cases hc

theorem halts_of_fatalCondition {i : Instr} {s : State} {c : FatalCode} (hc : fatalCondition s i = some c) :
    Halts i s c :=
  ⟨_, exec_of_fatalCondition hc, rfl, rfl, (Unchanged.refl s).halt (by simp [oneOf]) (by simp [oneOf]), rfl⟩

/-! ### The updates that several instructions share -/

theorem loadReg_unchanged (s : State) (x : Reg) (b : Byte) : Unchanged (oneOf [.v x, .pc]) s (s.writeReg x b).advance :=
  ((Unchanged.refl s).writeReg (by simp [oneOf])).advance (by simp [oneOf])

theorem loadRegFlag_unchanged (s : State) (x : Reg) (r f : Byte) :
    Unchanged (oneOf [.v x, .v flagReg, .pc]) s (s.writeResultFlag x r f).advance :=
  (((Unchanged.refl s).writeReg (by simp [oneOf])).writeReg (by simp [oneOf])).advance (by simp [oneOf])

theorem setPc_unchanged (s : State) (w : Word) : Unchanged (oneOf [.pc]) s (s.setPc w) :=
  (Unchanged.refl s).setPc (by simp [oneOf])

/-- No element shows the draw counter. -/
theorem unchanged_of_countDraw {W : Element → Prop} {s t : State} (h : Unchanged W s.countDraw t) : Unchanged W s t :=
  fun e he => (h e he).trans (observe_setRndDraws e s _)

theorem drawn_unchanged (s : State) (wrap : Bool) (x y : Reg) (n : Nibble) :
    Unchanged (fun e => isPixel e ∨ e ∈ [Element.v flagReg, .draw, .pc]) s (s.drawn wrap x y n) :=
  (((Unchanged.refl s).showFrame (fun px py => .inl ⟨px, py, rfl⟩) (by simp)).writeReg (by simp)).advance (by simp)

/-! ### The guarded instructions when the guard lets them pass -/

section
variable (s : State) (x y : Reg)

theorem exec_ret_of_no_fatal (h : fatalCondition s .ret = none) :
    ∃ k : Fin 16, s.sp.val = k.val + 1 ∧
      exec .ret s = .next ((s.setStack s.stack ⟨k.val, by omega⟩).setPc (s.stack[k] + 2)) := by
  have hsp : s.sp.val ≠ 0 := by simpa [fatalCondition] using h
  have hk : s.sp.val = s.sp.val - 1 + 1 := by omega
  exact ⟨⟨s.sp.val - 1, by omega⟩, hk, exec_ret_of_entry hk⟩

theorem exec_callNnn_of_no_fatal {nnn : Addr12} (h : fatalCondition s (.callNnn nnn) = none) :
    ∃ hroom : s.sp.val < 16, exec (.callNnn nnn) s = .next (s.called nnn hroom) := by
  have hsp : s.sp.val ≠ 16 := by simpa [fatalCondition] using h
  have hroom : s.sp.val < 16 := by omega
  exact ⟨hroom, exec_callNnn_of_room s nnn hroom⟩

theorem exec_jpV0Nnn_of_no_fatal {nnn : Addr12} (h : fatalCondition s (.jpV0Nnn nnn) = none) :
    exec (.jpV0Nnn nnn) s = .next (s.setPc (BitVec.ofNat 16 (nnn.toNat + (s.reg 0).toNat))) := by
  rw [exec_jpV0Nnn, if_neg (by simpa [fatalCondition] using h)]

theorem exec_drwVxVyN_of_no_fatal {n : Nibble} (h : fatalCondition s (.drwVxVyN x y n) = none) :
    exec (.drwVxVyN x y n) s = .next (s.drawn false x y n) := by
  rw [exec_drwVxVyN, if_pos (by simpa [fatalCondition] using h)]

theorem exec_ldBVx_of_no_fatal (h : fatalCondition s (.ldBVx x) = none) :
    exec (.ldBVx x) s = .next (s.setMem (s.mem.writeBytes (indexAddress s) (decimalDigits (s.reg x)))).advance := by
  rw [exec_ldBVx, if_pos (by simpa [fatalCondition] using h)]

theorem exec_ldMemVx_of_no_fatal (h : fatalCondition s (.ldMemVx x) = none) :
    exec (.ldMemVx x) s =
      .next ((s.setMem (s.mem.writeBytes (indexAddress s) (regsUpTo x s))).stepIndex x).advance := by
  rw [exec_ldMemVx, if_pos (by simpa [fatalCondition] using h)]

theorem exec_ldVxMem_of_no_fatal (h : fatalCondition s (.ldVxMem x) = none) :
    exec (.ldVxMem x) s = .next ((s.blockLoaded x).stepIndex x).advance := by
  rw [exec_ldVxMem, if_pos (by simpa [fatalCondition] using h)]

end

/-- Every instruction changes no element but those it may write, unless it halts the machine. -/
theorem exec_unchanged {i : Instr} {s t : State} (h : exec i s = .next t) (hnone : fatalCondition s i = none) :
    Unchanged (written s i) s t := by
  cases i with
  | cls =>
    cases h
    exact ((Unchanged.refl s).showFrame (fun px py => .inl ⟨px, py, rfl⟩) (by simp [written])).advance
      (by simp [written])
  | ret =>
    obtain ⟨k, -, hret⟩ := exec_ret_of_no_fatal s hnone
    cases hret.symm.trans h
    exact ((Unchanged.refl s).setStack (fun _ => .inr rfl) (by simp [written, oneOf])).setPc (by simp [written, oneOf])
  | callNnn nnn =>
    obtain ⟨hroom, hcall⟩ := exec_callNnn_of_no_fatal s hnone
    cases hcall.symm.trans h
    refine ((Unchanged.refl s).setStack (fun k => ?_) (by simp [written])).setPc (by simp [written])
    by_cases hk : s.sp.val = k.val
    · exact .inl (.inr ⟨k, hk, rfl⟩)
    · exact .inr (by simp [hk])
  | jpNnn nnn => cases (exec_jpNnn s nnn).symm.trans h; exact setPc_unchanged s _
  | jpV0Nnn nnn =>
    cases (exec_jpV0Nnn_of_no_fatal s hnone).symm.trans h
    exact setPc_unchanged s _
  | seVxNn | sneVxNn | seVxVy | sneVxVy | skpVx | sknpVx => cases h; exact setPc_unchanged s _
  | ldVxNn | addVxNn | ldVxVy | orVxVy | andVxVy | xorVxVy | ldVxDt => cases h; exact loadReg_unchanged s _ _
  | rndVxNn x nn => cases h; exact unchanged_of_countDraw (loadReg_unchanged s.countDraw x _)
  | addVxVy | subVxVy | shrVx | subnVxVy | shlVx => cases h; exact loadRegFlag_unchanged s _ _ _
  | drwVxVyN x y n =>
    cases (exec_drwVxVyN_of_no_fatal s x y hnone).symm.trans h
    exact drawn_unchanged s false x y n
  | ldVxK x => cases h; exact ((Unchanged.refl s).setWait (by simp [written, oneOf])).advance (by simp [written, oneOf])
  | ldDtVx x => cases h; exact ((Unchanged.refl s).setDt (by simp [written, oneOf])).advance (by simp [written, oneOf])
  | ldStVx x => cases h; exact ((Unchanged.refl s).setSt (by simp [written, oneOf])).advance (by simp [written, oneOf])
  | ldINnn nnn =>
    cases (exec_ldINnn s nnn).symm.trans h
    exact ((Unchanged.refl s).setI (by simp [written, oneOf])).advance (by simp [written, oneOf])
  | ldFVx x => cases h; exact ((Unchanged.refl s).setI (by simp [written, oneOf])).advance (by simp [written, oneOf])
  | addIVx x =>
    cases h
    exact (((Unchanged.refl s).setI (by simp [written, oneOf])).writeReg (by simp [written, oneOf])).advance
      (by simp [written, oneOf])
  | ldBVx x =>
    cases (exec_ldBVx_of_no_fatal s x hnone).symm.trans h
    exact ((Unchanged.refl s).writeBytes (fun e he => .inl he)).advance (.inr rfl)
  | ldMemVx x =>
    cases (exec_ldMemVx_of_no_fatal s x hnone).symm.trans h
    exact (((Unchanged.refl s).writeBytes fun e he => .inl (regsUpTo_length x s ▸ he)).setI (by simp [written])).advance
      (by simp [written])
  | ldVxMem x =>
    cases (exec_ldVxMem_of_no_fatal s x hnone).symm.trans h
    exact (((Unchanged.refl s).blockLoaded fun k hk => .inl ⟨k, hk, rfl⟩).setI (by simp [written])).advance
      (by simp [written])
  | unknownInstruction op => cases hnone

/-- An instruction halts the machine by the fatal condition that it raises, or changes no element but those it may write. -/
theorem exec_cases {i : Instr} {s t : State} (h : exec i s = .next t) :
    (∃ c, fatalCondition s i = some c ∧ t = s.halt c) ∨ (fatalCondition s i = none ∧ Unchanged (written s i) s t) := by
  cases hf : fatalCondition s i with
  | none => exact .inr ⟨rfl, exec_unchanged h hf⟩
  | some c => exact .inl ⟨c, rfl, Host.Outcome.next.inj (h.symm.trans (exec_of_fatalCondition hf))⟩

/-- An element that an instruction does not write keeps its value, ERR and RUNNING aside, which a halt writes. -/
theorem exec_observe {i : Instr} {s t : State} (h : exec i s = .next t) {e : Element} (he : ¬ written s i e)
    (herr : e ≠ .err := by simp) (hrun : e ≠ .running := by simp) : observe e t = observe e s := by
  rcases exec_cases h with ⟨c, -, rfl⟩ | ⟨-, hun⟩
  · exact (Unchanged.refl s).halt (W := oneOf [.err, .running]) (by simp [oneOf]) (by simp [oneOf]) e
      (by simp [oneOf, herr, hrun])
  · exact hun e he

/-- The two fields that hold more than their observable elements: memory as a list, and the draw counter. -/
theorem exec_mem_rndDraws {i : Instr} {s t : State} (h : exec i s = .next t) :
    (t.mem = s.mem ∨ ∃ x, i = .ldBVx x ∨ i = .ldMemVx x) ∧ (t.rndDraws = s.rndDraws ∨ ∃ x nn, i = .rndVxNn x nn) := by
  rcases exec_cases h with ⟨c, -, rfl⟩ | ⟨hnone, -⟩
  · exact ⟨.inl rfl, .inl rfl⟩
  cases i with
  | ldBVx x => cases (exec_ldBVx_of_no_fatal s x hnone).symm.trans h; exact ⟨.inr ⟨x, .inl rfl⟩, .inl rfl⟩
  | ldMemVx x => cases (exec_ldMemVx_of_no_fatal s x hnone).symm.trans h; exact ⟨.inr ⟨x, .inr rfl⟩, .inl rfl⟩
  | rndVxNn x nn => cases h; exact ⟨.inl rfl, .inr ⟨x, nn, rfl⟩⟩
  | ret =>
    obtain ⟨k, -, hret⟩ := exec_ret_of_no_fatal s hnone
    cases hret.symm.trans h
    exact ⟨.inl rfl, .inl rfl⟩
  | callNnn nnn =>
    obtain ⟨hroom, hcall⟩ := exec_callNnn_of_no_fatal s hnone
    cases hcall.symm.trans h
    exact ⟨.inl rfl, .inl rfl⟩
  | jpV0Nnn nnn => cases (exec_jpV0Nnn_of_no_fatal s hnone).symm.trans h; exact ⟨.inl rfl, .inl rfl⟩
  | drwVxVyN x y n => cases (exec_drwVxVyN_of_no_fatal s x y hnone).symm.trans h; exact ⟨.inl rfl, .inl rfl⟩
  | ldVxMem x => cases (exec_ldVxMem_of_no_fatal s x hnone).symm.trans h; exact ⟨.inl (by simp), .inl (by simp)⟩
  | jpNnn nnn => cases (exec_jpNnn s nnn).symm.trans h; exact ⟨.inl rfl, .inl rfl⟩
  | ldINnn nnn => cases (exec_ldINnn s nnn).symm.trans h; exact ⟨.inl rfl, .inl rfl⟩
  | unknownInstruction op => cases hnone
  | _ => cases h; exact ⟨.inl rfl, .inl rfl⟩

/-! ### The table of writers, element by element (10_state.md R36) -/

section
variable (s : State) (i : Instr)

theorem written_v (k : Reg) : written s i (.v k) ↔ mayWriteReg k i = true := by
  cases i <;> simp [written, mayWriteReg, oneOf, isPixel, storedTo]

theorem not_written_key (k : Fin 16) : ¬ written s i (.key k) := by
  cases i <;> simp [written, oneOf, isPixel, storedTo]

theorem not_written_opcode : ¬ written s i .opcode := by
  cases i <;> simp [written, oneOf, isPixel, storedTo]

theorem written_dt : written s i .dt ↔ ∃ x, i = .ldDtVx x := by
  cases i <;> simp [written, oneOf, isPixel, storedTo]

theorem written_st : written s i .st ↔ ∃ x, i = .ldStVx x := by
  cases i <;> simp [written, oneOf, isPixel, storedTo]

theorem written_wait : written s i .wait ↔ ∃ x, i = .ldVxK x := by
  cases i <;> simp [written, oneOf, isPixel, storedTo]

theorem written_draw : written s i .draw ↔ i = .cls ∨ ∃ x y n, i = .drwVxVyN x y n := by
  cases i <;> simp [written, oneOf, isPixel, storedTo]

theorem written_pixel (px : Fin 64) (py : Fin 32) :
    written s i (.pixel px py) ↔ i = .cls ∨ ∃ x y n, i = .drwVxVyN x y n := by
  cases i <;> simp [written, oneOf, isPixel, storedTo]

theorem written_sp : written s i .sp ↔ i = .ret ∨ ∃ nnn, i = .callNnn nnn := by
  cases i <;> simp [written, oneOf, isPixel, storedTo]

theorem written_stack (k : Fin 16) : written s i (.stack k) ↔ (∃ nnn, i = .callNnn nnn) ∧ s.sp.val = k.val := by
  cases i <;> simp [written, oneOf, isPixel, storedTo]

theorem written_i : written s i .i ↔
    (∃ nnn, i = .ldINnn nnn) ∨ ∃ x, i = .addIVx x ∨ i = .ldFVx x ∨ i = .ldMemVx x ∨ i = .ldVxMem x := by
  cases i <;> simp [written, oneOf, isPixel, storedTo]

end

/-! ### The elements determine the fields -/

section
variable {s t : State}

theorem bool_eq_of_toNat_eq {a b : Bool} (h : a.toNat = b.toNat) : a = b := by
  cases a <;> cases b <;> simp at h ⊢

theorem v_eq_of_observe (h : ∀ x, observe (.v x) s = observe (.v x) t) : s.v = t.v :=
  State.v_ext s t fun x => BitVec.eq_of_toNat_eq (h x)

theorem stack_eq_of_observe (h : ∀ k, observe (.stack k) s = observe (.stack k) t) : s.stack = t.stack :=
  Vector.ext fun k hk => BitVec.eq_of_toNat_eq (h ⟨k, hk⟩)

theorem keys_eq_of_observe (h : ∀ k, observe (.key k) s = observe (.key k) t) : s.keys = t.keys :=
  BitVec.eq_of_getLsbD_eq fun k hk => bool_eq_of_toNat_eq (h ⟨k, hk⟩)

theorem pixel_eq_of_observe {px : Fin 64} {py : Fin 32} (h : observe (.pixel px py) s = observe (.pixel px py) t) :
    Frame.pixel s.fb px.val py.val = Frame.pixel t.fb px.val py.val :=
  bool_eq_of_toNat_eq h

theorem fb_eq_of_observe (h : ∀ px py, observe (.pixel px py) s = observe (.pixel px py) t) : s.fb = t.fb := by
  refine Vector.ext fun py hpy => BitVec.eq_of_getLsbD_eq fun px hpx => ?_
  simpa [Frame.pixel, hpy] using pixel_eq_of_observe (h ⟨px, hpx⟩ ⟨py, hpy⟩)

theorem errNumber_injective : Function.Injective (errNumber config.errCode) := by
  intro a b h
  cases a <;> cases b <;> simp [errNumber, config] at h ⊢

theorem mem_eq_of_observe (hs : s.mem.wf) (ht : t.mem.wf) (h : ∀ a, observe (.mem a) s = observe (.mem a) t) :
    s.mem = t.mem :=
  Memory.eq_of_read_eq _ _ hs ht fun a ha => BitVec.eq_of_toNat_eq (h ⟨a, ha⟩)

end

/-- Settles O55: every field is determined by its elements, memory by its canonical form. -/
theorem observationsDetermineTheState : Obligations.ObservationsDetermineTheState := by
  intro s t hs ht h hdraws
  have hv := v_eq_of_observe fun x => h (.v x)
  have hi := BitVec.eq_of_toNat_eq (h .i)
  have hpc := BitVec.eq_of_toNat_eq (h .pc)
  have hsp := Fin.ext (h .sp)
  have hstack := stack_eq_of_observe fun k => h (.stack k)
  have hdt := BitVec.eq_of_toNat_eq (h .dt)
  have hst := BitVec.eq_of_toNat_eq (h .st)
  have hkeys := keys_eq_of_observe fun k => h (.key k)
  have hfb := fb_eq_of_observe fun px py => h (.pixel px py)
  have hdraw := bool_eq_of_toNat_eq (h .draw)
  have hwait := bool_eq_of_toNat_eq (h .wait)
  have hopcode := BitVec.eq_of_toNat_eq (h .opcode)
  have hrunning := bool_eq_of_toNat_eq (h .running)
  have herr := errNumber_injective (h .err)
  have hmem := mem_eq_of_observe hs ht fun a => h (.mem a)
  cases s
  cases t
  simp_all only

/-! ### PC after an instruction (10_state.md R23) -/

theorem skipIf_pc {cond : Bool} {s t : State} (h : skipIf cond s = .next t) : t.pc = s.pc + 2 ∨ t.pc = s.pc + 4 := by
  cases h
  cases cond
  · exact .inl rfl
  · exact .inr rfl

/-- PC moves two on, or four by a skip, or to a target by a redirection, or stays by a halt. -/
theorem exec_pc_cases {i : Instr} {s t : State} (h : exec i s = .next t) :
    t.pc = s.pc + 2 ∨ (isSkip i ∧ t.pc = s.pc + 4) ∨ redirects i ∨ (t.pc = s.pc ∧ t.running = false) := by
  rcases exec_cases h with ⟨c, -, rfl⟩ | ⟨hnone, -⟩
  · exact .inr (.inr (.inr ⟨rfl, rfl⟩))
  cases i with
  | seVxNn | sneVxNn | seVxVy | sneVxVy | skpVx | sknpVx =>
    exact (skipIf_pc h).imp_right fun hpc => .inl ⟨by simp [isSkip], hpc⟩
  | ret | jpNnn | callNnn | jpV0Nnn => exact .inr (.inr (.inl (by simp [redirects])))
  | drwVxVyN x y n => cases (exec_drwVxVyN_of_no_fatal s x y hnone).symm.trans h; exact .inl rfl
  | ldBVx x => cases (exec_ldBVx_of_no_fatal s x hnone).symm.trans h; exact .inl rfl
  | ldMemVx x => cases (exec_ldMemVx_of_no_fatal s x hnone).symm.trans h; exact .inl rfl
  | ldVxMem x => cases (exec_ldVxMem_of_no_fatal s x hnone).symm.trans h; exact .inl (by simp)
  | ldINnn nnn => cases (exec_ldINnn s nnn).symm.trans h; exact .inl rfl
  | unknownInstruction op => cases hnone
  | _ => cases h; exact .inl rfl

/-- A wait is begun by LD Vx,K and ended by no instruction. -/
theorem exec_wait_cases {i : Instr} {s t : State} (h : exec i s = .next t) :
    t.wait = s.wait ∨ (t.wait = true ∧ ∃ x, i = .ldVxK x) := by
  by_cases hi : ∃ x, i = .ldVxK x
  · obtain ⟨x, rfl⟩ := hi
    cases h
    exact .inr ⟨rfl, x, rfl⟩
  · exact .inl (bool_eq_of_toNat_eq (exec_observe h (mt (written_wait s i).1 hi)))

/-- DRAW is set by CLS and DRW and cleared by no instruction. -/
theorem exec_draw_cases {i : Instr} {s t : State} (h : exec i s = .next t) :
    t.draw = s.draw ∨ (t.draw = true ∧ (i = .cls ∨ ∃ x y n, i = .drwVxVyN x y n)) := by
  by_cases hi : i = .cls ∨ ∃ x y n, i = .drwVxVyN x y n
  · rcases hi with rfl | ⟨x, y, n, rfl⟩
    · cases h
      exact .inr ⟨rfl, .inl rfl⟩
    · cases (exec_drwVxVyN s x y n).symm.trans h
      split
      · exact .inr ⟨rfl, .inr ⟨x, y, n, rfl⟩⟩
      · exact .inl rfl
  · exact .inl (bool_eq_of_toNat_eq (exec_observe h (mt (written_draw s i).1 hi)))

theorem exec_keepsRunOrHalts {i : Instr} {s t : State} (h : exec i s = .next t) : KeepsRunOrHalts s t := by
  obtain ⟨u, hu, hkeeps⟩ := exec_next_keepsRunOrHalts i s
  obtain rfl : u = t := Host.Outcome.next.inj (hu.symm.trans h)
  exact hkeeps

/-- Settles O52: an element that differs is one that the instruction may write, and the table of writers says which
instructions those are. -/
theorem programsWriteOnlyWhatTheirInstructionsMay : Obligations.ProgramsWriteOnlyWhatTheirInstructionsMay := by
  intro i s t h
  refine ⟨?reg, ?pc, ?keys, ?opcode, ?dt, ?st, ?wait, ?draw, ?fb, ?sp, ?stack, ?mem, ?i, ?running, ?err, ?rndDraws⟩
  case reg =>
    exact fun k => not_imp_comm.1 fun hno => BitVec.eq_of_toNat_eq (exec_observe h (mt (written_v s i k).1 hno))
  case pc => exact (exec_pc_cases h).resolve_left
  case keys => exact keys_eq_of_observe fun k => exec_observe h (not_written_key s i k)
  case opcode => exact BitVec.eq_of_toNat_eq (exec_observe h (not_written_opcode s i))
  case dt => exact not_imp_comm.1 fun hno => BitVec.eq_of_toNat_eq (exec_observe h (mt (written_dt s i).1 hno))
  case st => exact not_imp_comm.1 fun hno => BitVec.eq_of_toNat_eq (exec_observe h (mt (written_st s i).1 hno))
  case wait => exact (exec_wait_cases h).resolve_left
  case draw => exact (exec_draw_cases h).resolve_left
  case fb =>
    exact not_imp_comm.1 fun hno => fb_eq_of_observe fun px py => exec_observe h (mt (written_pixel s i px py).1 hno)
  case sp => exact not_imp_comm.1 fun hno => Fin.ext (exec_observe h (mt (written_sp s i).1 hno))
  case stack =>
    exact not_imp_comm.1 fun hno => stack_eq_of_observe fun k => exec_observe h fun hw => hno ((written_stack s i k).1 hw).1
  case mem => exact (exec_mem_rndDraws h).1.resolve_left
  case i => exact not_imp_comm.1 fun hno => BitVec.eq_of_toNat_eq (exec_observe h (mt (written_i s i).1 hno))
  case running =>
    intro hne
    rcases exec_keepsRunOrHalts h with ⟨hsame, -⟩ | ⟨c, rfl⟩
    · exact absurd hsame hne
    · rfl
  case err =>
    intro hne
    rcases exec_keepsRunOrHalts h with ⟨-, hsame⟩ | ⟨c, rfl⟩
    · exact absurd hsame hne
    · rfl
  case rndDraws => exact (exec_mem_rndDraws h).2.resolve_left

end Sys2Proof.Machine

/-! ## The invariant (10_state.md R38) -/

namespace Sys2Proof.Machine

/-! ### Step always answers a state -/

theorem exec_total (i : Instr) (s : State) : ∃ t, exec i s = .next t :=
  (exec_next_keepsRunOrHalts i s).imp fun _ h => h.1

/-- In a running, not waiting state with both bytes of the word in memory, a Step executes what the word decodes to, in
the state that has latched it (40_step_cycle.md R91 to R95). -/
theorem step_of_fetch {s : State} (hrun : s.running = true) (hwait : s.wait = false) (hpc : s.pc.toNat ≤ 0xFFE) :
    step s = exec (decodeWord (joinBytes (s.mem.read s.pc.toNat) (s.mem.read (s.pc.toNat + 1))))
      (s.latchOpcode (joinBytes (s.mem.read s.pc.toNat) (s.mem.read (s.pc.toNat + 1)))) := by
  simp [step, State.active, hrun, hwait, fetchWord_eq, hpc]

/-- A fetch outside memory raises AOB before OPCODE is latched (40_step_cycle.md R92). -/
theorem step_of_fetch_outside {s : State} (hrun : s.running = true) (hwait : s.wait = false) (hpc : 0xFFE < s.pc.toNat) :
    step s = .next (s.halt .aob) := by
  simp [step, State.active, hrun, hwait, fetchWord_eq, Nat.not_le.2 hpc]

theorem active_iff (s : State) : s.active = true ↔ s.running = true ∧ s.wait = false := by
  simp [State.active]

theorem step_total (s : State) : ∃ t, step s = .next t := by
  by_cases ha : s.active = true
  · obtain ⟨hrun, hwait⟩ := (active_iff s).1 ha
    by_cases hpc : s.pc.toNat ≤ 0xFFE
    · rw [step_of_fetch hrun hwait hpc]
      exact exec_total _ _
    · exact ⟨_, step_of_fetch_outside hrun hwait (by omega)⟩
  · exact ⟨s, if_neg ha⟩

/-- Settles O13: no instruction faults or is refused, and the gate and the fetch check each answer a state. -/
theorem everyStepAnswersAState : Obligations.EveryStepAnswersAState := ⟨step_total, exec_total⟩

/-! ### The invariant through the execute phase -/

/-- The register that a decoded LD Vx,K names is `op[11:8]`. -/
theorem eq_fieldX_of_decodeWord_eq_ldVxK {op : Word} {x : Reg} (h : decodeWord op = .ldVxK x) : x = fieldX op := by
  have hmask : op &&& 0xF00F = 0xF00A := (readFrom_decodeTree op).matches_row _ (by rw [← decodeWord_eq, h]; rfl)
  obtain ⟨hg, hn⟩ := fields_of_mask hmask
  have hK : decodeTree op = .ldVxK (fieldX op) := by
    simp only [decodeTree, hg, decodeGroupF, hn]
    rfl
  rw [decodeWord_eq, hK] at h
  cases h
  rfl

/-- Every live stack entry is the address of a CALL that was fetched. -/
theorem exec_live_entries {i : Instr} {s t : State} (h : exec i s = .next t) (hpc : s.pc.toNat ≤ 0xFFE)
    (hlive : ∀ k : Fin 16, k.val < s.sp.val → s.stack[k].toNat ≤ 0xFFE) :
    ∀ k : Fin 16, k.val < t.sp.val → t.stack[k].toNat ≤ 0xFFE := by
  by_cases hi : i = .ret ∨ ∃ nnn, i = .callNnn nnn
  case neg =>
    have hsp : t.sp = s.sp := Fin.ext (exec_observe h (mt (written_sp s i).1 hi))
    have hstack : t.stack = s.stack :=
      stack_eq_of_observe fun k => exec_observe h fun hw => hi (.inr ((written_stack s i k).1 hw).1)
    rwa [hsp, hstack]
  rcases exec_cases h with ⟨c, -, rfl⟩ | ⟨hnone, -⟩
  · exact hlive
  rcases hi with rfl | ⟨nnn, rfl⟩
  · obtain ⟨k, hk, hret⟩ := exec_ret_of_no_fatal s hnone
    cases hret.symm.trans h
    exact fun j (hlt : j.val < k.val) => hlive j (by omega)
  · obtain ⟨hroom, hcall⟩ := exec_callNnn_of_no_fatal s hnone
    cases hcall.symm.trans h
    intro k hlt
    simp only [State.called, State.setPc_sp, State.setStack_sp] at hlt
    by_cases hk : s.sp.val = k.val
    · simpa [State.called, hk] using hpc
    · simpa [State.called, hk] using hlive k (by omega)

theorem zextAddress_toNat (nnn : Addr12) : (zextAddress nnn).toNat = nnn.toNat := by
  have := nnn.isLt
  simp [zextAddress]
  omega

/-- A redirection goes to a 12-bit address, or two past a live stack entry. -/
theorem exec_pc_le_of_redirects {i : Instr} {s t : State} (h : exec i s = .next t) (hredir : redirects i)
    (hnone : fatalCondition s i = none) (hlive : ∀ k : Fin 16, k.val < s.sp.val → s.stack[k].toNat ≤ 0xFFE) :
    t.pc.toNat ≤ 0x1000 := by
  rcases hredir with rfl | ⟨nnn, hmem⟩
  · obtain ⟨k, hk, hret⟩ := exec_ret_of_no_fatal s hnone
    cases hret.symm.trans h
    have hle : s.stack[k].toNat ≤ 0xFFE := hlive k (by omega)
    rw [State.setPc_pc, BitVec.toNat_add]
    exact Nat.le_trans (Nat.mod_le _ _) (Nat.add_le_add_right hle 2)
  have hlt := nnn.isLt
  simp only [List.mem_cons, List.not_mem_nil, or_false] at hmem
  rcases hmem with rfl | rfl | rfl
  · cases (exec_jpNnn s nnn).symm.trans h
    rw [State.setPc_pc, zextAddress_toNat]
    omega
  · obtain ⟨hroom, hcall⟩ := exec_callNnn_of_no_fatal s hnone
    cases hcall.symm.trans h
    rw [State.called, State.setPc_pc, zextAddress_toNat]
    omega
  · have hsum : nnn.toNat + (s.reg 0).toNat < 4096 := by simpa [fatalCondition] using hnone
    cases (exec_jpV0Nnn_of_no_fatal s hnone).symm.trans h
    rw [State.setPc_pc, BitVec.toNat_ofNat]
    omega

/-- PC stays within four of a fetched word. -/
theorem exec_pc_le {i : Instr} {s t : State} (h : exec i s = .next t) (hpc : s.pc.toNat ≤ 0xFFE)
    (hlive : ∀ k : Fin 16, k.val < s.sp.val → s.stack[k].toNat ≤ 0xFFE) : t.pc.toNat ≤ 0x1002 := by
  rcases exec_cases h with ⟨c, -, rfl⟩ | ⟨hnone, -⟩
  · rw [State.halt_pc]
    omega
  rcases exec_pc_cases h with heq | ⟨-, heq⟩ | hredir | ⟨heq, -⟩
  · rw [heq]
    bv_omega
  · rw [heq]
    bv_omega
  · have := exec_pc_le_of_redirects h hredir hnone hlive
    omega
  · rw [heq]
    omega

/-- A halt of a machine that does not wait keeps the invariant. -/
theorem Inv.halt {s : State} (hinv : Inv s) (hwait : s.wait = false) (c : FatalCode) : Inv (s.halt c) where
  running_iff_no_error := by cases c <;> simp [FatalCode.toError]
  waiting_runs := by simp [hwait]
  waiting_opcode := by simp [hwait]
  live_entries_fetched := hinv.live_entries_fetched
  pc_bounded := hinv.pc_bounded
  memory_canonical := hinv.memory_canonical

/-- The execute phase of the word in OPCODE keeps the invariant. -/
theorem Inv.exec {s t : State} (hinv : Inv s) (hruns : s.running = true) (hwait : s.wait = false) (hpc : s.pc.toNat ≤ 0xFFE)
    (h : exec (decodeWord s.opcode) s = .next t) : Inv t := by
  rcases exec_keepsRunOrHalts h with ⟨hrun, herr⟩ | ⟨c, rfl⟩
  case inr => exact hinv.halt hwait c
  have hopcode : t.opcode = s.opcode := BitVec.eq_of_toNat_eq (exec_observe h (not_written_opcode s _))
  have hwaiting : t.wait = true → decodeWord s.opcode = .ldVxK (fieldX s.opcode) := by
    intro ht
    rcases exec_wait_cases h with hsame | ⟨-, x, hx⟩
    · simp [hsame, hwait] at ht
    · rw [hx, eq_fieldX_of_decodeWord_eq_ldVxK hx]
  exact {
    running_iff_no_error := by rw [hrun, herr]; exact hinv.running_iff_no_error
    waiting_runs := fun _ => hrun.trans hruns
    waiting_opcode := fun ht => hopcode ▸ hwaiting ht
    live_entries_fetched := exec_live_entries h hpc hinv.live_entries_fetched
    pc_bounded := exec_pc_le h hpc hinv.live_entries_fetched
    memory_canonical := exec_mem_wf h hinv.memory_canonical }

/-- Latching OPCODE keeps the invariant of a machine that does not wait. -/
theorem Inv.latchOpcode {s : State} (hinv : Inv s) (hwait : s.wait = false) (op : Word) : Inv (s.latchOpcode op) where
  running_iff_no_error := hinv.running_iff_no_error
  waiting_runs := hinv.waiting_runs
  waiting_opcode := by simp [hwait]
  live_entries_fetched := hinv.live_entries_fetched
  pc_bounded := hinv.pc_bounded
  memory_canonical := hinv.memory_canonical

/-- Settles O50: the gate keeps the state, the fetch check halts it, and the execute phase of the latched word keeps
`Inv`. -/
theorem invariantKeptByEveryStep : Obligations.InvariantKeptByEveryStep := by
  intro s t hinv h
  rcases step_cases h with ⟨-, rfl⟩ | ⟨hactive, -, rfl⟩ | ⟨hactive, hpc, hexec⟩
  · exact hinv
  · exact hinv.halt ((active_iff s).1 hactive).2 .aob
  · obtain ⟨hrun, hwait⟩ := (active_iff s).1 hactive
    generalize joinBytes _ _ = op at hexec
    exact (hinv.latchOpcode hwait op).exec hrun hwait hpc hexec

/-! ### The invariant through the other host operations -/

/-- The invariant reads eight fields, and WAIT may be cleared freely. -/
theorem Inv.congr {s t : State} (hinv : Inv s) (hrun : t.running = s.running) (herr : t.err = s.err)
    (hwait : t.wait = true → s.wait = true) (hopcode : t.opcode = s.opcode) (hsp : t.sp = s.sp) (hstack : t.stack = s.stack)
    (hpc : t.pc = s.pc) (hmem : t.mem = s.mem) : Inv t where
  running_iff_no_error := by rw [hrun, herr]; exact hinv.running_iff_no_error
  waiting_runs := fun ht => hrun.trans (hinv.waiting_runs (hwait ht))
  waiting_opcode := fun ht => by rw [hopcode]; exact hinv.waiting_opcode (hwait ht)
  live_entries_fetched := by rw [hsp, hstack]; exact hinv.live_entries_fetched
  pc_bounded := by rw [hpc]; exact hinv.pc_bounded
  memory_canonical := by rw [hmem]; exact hinv.memory_canonical

/-- Settles O49: no program, an empty stack, PC at 0x200 and no listed byte. -/
theorem invariantHoldsAfterInit : Obligations.InvariantHoldsAfterInit where
  running_iff_no_error := by decide
  waiting_runs := by decide
  waiting_opcode := by decide
  live_entries_fetched := fun k hk => absurd hk (Nat.not_lt_zero _)
  pc_bounded := by decide
  memory_canonical := Memory.wf_nil

theorem inv_initialise (s : State) : Inv (initialise s) :=
  invariantHoldsAfterInit.congr rfl rfl id rfl rfl rfl rfl rfl

theorem Inv.load {s : State} (hinv : Inv s) (bytes : List Byte) : Inv (load bytes s) := by
  cases hacc : loadAccepted bytes with
  | false => rwa [load_of_rejected hacc]
  | true =>
    obtain ⟨-, hlen⟩ := (loadAccepted_iff bytes).1 hacc
    have hinit := inv_initialise s
    rw [Machine.load, if_pos hacc]
    exact {
      running_iff_no_error := by simp
      waiting_runs := fun _ => rfl
      waiting_opcode := hinit.waiting_opcode
      live_entries_fetched := hinit.live_entries_fetched
      pc_bounded := hinit.pc_bounded
      memory_canonical := Memory.writeBytes_wf _ _ _ Memory.wf_nil (by simp only [progBase, memSize]; omega) }

theorem Inv.keyUpdate {s : State} (hinv : Inv s) (mask : Word) : Inv (keyUpdate mask s) := by
  rw [Machine.keyUpdate, keyUpdateWith]
  rcases resolveWait_cases (resolvingKeys config.keywaitTrigger mask s.keys) s with hsame | ⟨k, -, -, hends⟩
  · rw [hsame]
    exact hinv.congr rfl rfl id rfl rfl rfl rfl rfl
  · rw [hends]
    exact hinv.congr rfl rfl (by simp) rfl rfl rfl rfl rfl

theorem Inv.apply {s : State} (hinv : Inv s) (op : HostOp) : ∃ t, op.apply s = .next t ∧ Inv t := by
  cases op with
  | init => exact ⟨_, rfl, inv_initialise s⟩
  | load bytes => exact ⟨_, rfl, hinv.load bytes⟩
  | step =>
    obtain ⟨t, ht⟩ := step_total s
    exact ⟨t, ht, invariantKeptByEveryStep s t hinv ht⟩
  | tick => exact ⟨_, rfl, hinv.congr rfl rfl id rfl rfl rfl rfl rfl⟩
  | keyUpdate mask => exact ⟨_, rfl, hinv.keyUpdate mask⟩
  | ackFrame => exact ⟨_, rfl, hinv.congr rfl rfl id rfl rfl rfl rfl rfl⟩
  | observe e => exact ⟨s, rfl, hinv⟩

/-- Settles O51: each of the seven operations keeps the invariant, so every list of them does. -/
theorem invariantKeptByEveryRun : Obligations.InvariantKeptByEveryRun := by
  intro ops s t hinv h
  obtain ⟨u, hu, hinvu⟩ := runHostOps_preserves (P := Inv) (fun op _ s hs => hs.apply op) hinv
  obtain rfl : u = t := Host.Outcome.next.inj (hu.symm.trans h)
  exact hinvu

end Sys2Proof.Machine

/-! ## The Step operation (40_step_cycle.md R91 to R97) -/

namespace Sys2Proof.Machine

/-- Settles O7: `decode` of the two bytes at PC is `decodeWord` of the fetched word. -/
theorem stepRunsTheDecodedInstruction : Obligations.StepRunsTheDecodedInstruction := by
  rintro s _ _ i hrun hwait hpc rfl rfl hdecode
  rw [decode_two, Except.ok.injEq, Prod.mk.injEq] at hdecode
  rw [step_of_fetch hrun hwait hpc, hdecode.1]

theorem unchanged_halt (s : State) (c : FatalCode) : Unchanged (oneOf [.err, .running]) s (s.halt c) :=
  (Unchanged.refl s).halt (by simp [oneOf]) (by simp [oneOf])

/-- Settles O10: the state is the one before, halted with AOB. -/
theorem fetchOutsideMemoryHalts : Obligations.FetchOutsideMemoryHalts := by
  intro s hrun hwait hpc
  exact ⟨_, step_of_fetch_outside hrun hwait hpc, rfl, rfl, unchanged_halt s .aob, rfl⟩

theorem exec_opcode {i : Instr} {s t : State} (h : exec i s = .next t) : t.opcode = s.opcode :=
  BitVec.eq_of_toNat_eq (exec_observe h (not_written_opcode s i))

/-- Settles O11: the word is latched before the instruction executes, and no instruction writes OPCODE. -/
theorem fetchedWordStaysInOpcode : Obligations.FetchedWordStaysInOpcode := by
  intro s t hrun hwait hpc h
  rw [step_of_fetch hrun hwait hpc] at h
  exact exec_opcode h

/-- Settles O12: UNK is the fatal condition of the unknown instruction, which an illegal word decodes to. -/
theorem unknownInstructionHalts : Obligations.UnknownInstructionHalts := by
  refine ⟨fun op s => halts_of_fatalCondition rfl, fun s hrun hwait hpc hillegal => ?_⟩
  have hunknown := (illegalWord_iff_decodeTree _).1 hillegal
  rw [step_of_fetch hrun hwait hpc, decodeWord_eq, hunknown]
  exact ⟨_, exec_unknownInstruction _ _, rfl, rfl, rfl, rfl,
    ((Unchanged.refl s).latchOpcode (by simp [oneOf])).halt (by simp [oneOf]) (by simp [oneOf]), rfl⟩

/-- A word `1NNN` is a jump to its low twelve bits. -/
theorem decodeWord_eq_jpNnn {op : Word} (h : op.toNat / 4096 = 1) : decodeWord op = .jpNnn (fieldNNN op) := by
  have hg : (fieldG op).toNat = 1 := by rw [fieldG_toNat, h]
  simp only [decodeWord_eq, decodeTree, hg]

/-- Settles O54: the word is a jump to PC, so that only the latched OPCODE differs. -/
theorem jumpToItselfIsStationary : Obligations.JumpToItselfIsStationary := by
  intro s hrun hwait hpc hword
  rw [step_of_fetch hrun hwait hpc]
  generalize joinBytes _ _ = op at hword ⊢
  have htarget : zextAddress (fieldNNN op) = s.pc := by
    apply BitVec.eq_of_toNat_eq
    rw [zextAddress_toNat, fieldNNN_toNat]
    omega
  have hstays : exec (decodeWord op) (s.latchOpcode op) = .next (s.latchOpcode op) := by
    rw [decodeWord_eq_jpNnn (by omega), exec_jpNnn, htarget]
    rfl
  exact ⟨_, hstays, hword, (Unchanged.refl s).latchOpcode (by simp [oneOf]), rfl⟩

/-! ### The placed word (log 2) -/

theorem fetchAddress_le (s : State) : (fetchAddress s).toNat ≤ 0xFFE := by
  unfold fetchAddress
  split
  · assumption
  · decide

theorem tableWordBytes_sixteen (w : Nat) :
    tableWordBytes 16 w = [highByte (BitVec.ofNat 16 w), lowByte (BitVec.ofNat 16 w)] := by
  have : BitVec.ofNat 16 (w % 2 ^ 16) = BitVec.ofNat 16 w := by
    apply BitVec.eq_of_toNat_eq
    simp
  simp only [tableWordBytes, this]

theorem placeWord_unchanged (s : State) (bytes : List Byte) :
    Unchanged (fun e => storedTo (fetchAddress s).toNat bytes.length e ∨ e ∈ [Element.pc, .running, .err, .wait]) s
      (placeWord bytes s) := by
  intro e he
  cases e with
  | mem a =>
    have hout : ¬ ((fetchAddress s).toNat ≤ a.val ∧ a.val < (fetchAddress s).toNat + bytes.length) :=
      fun hin => he (.inl ⟨a, rfl, hin⟩)
    simp [observe, placeWord, Memory.read_writeBytes, hout]
  | pc | running | err | wait => exact absurd (.inr (by simp)) he
  | _ => rfl

/-- The fetch after placing a word reads that word. -/
theorem step_placeWord (s : State) (op : Word) :
    step (placeWord [highByte op, lowByte op] s) =
      exec (decodeWord op) ((placeWord [highByte op, lowByte op] s).latchOpcode op) := by
  have hhi : (placeWord [highByte op, lowByte op] s).mem.read (fetchAddress s).toNat = highByte op := by
    simp [placeWord, Memory.read_writeBytes]
  have hlo : (placeWord [highByte op, lowByte op] s).mem.read ((fetchAddress s).toNat + 1) = lowByte op := by
    simp [placeWord, Memory.read_writeBytes]
  rw [step_of_fetch rfl rfl (fetchAddress_le s)]
  simp only [show (placeWord [highByte op, lowByte op] s).pc = fetchAddress s from rfl, hhi, hlo,
    joinBytes_highByte_lowByte]

/-- Settles O8: the fetch after placing reads the placed bytes, and `placeWord` writes nothing else. -/
theorem placedWordRunsNext : Obligations.PlacedWordRunsNext := by
  intro s w _
  rw [State.withFetchWord, tableWordBytes_sixteen]
  exact ⟨step_placeWord s _, fun hpc => if_pos hpc, placeWord_unchanged s [_, _], rfl⟩

/-! ### Fatal conditions -/

/-- Settles O35: an instruction leaves RUNNING alone or answers `halt` of its state; a Step latches OPCODE before that. -/
theorem haltingWritesOnlyErrAndRunning : Obligations.HaltingWritesOnlyErrAndRunning := by
  refine ⟨fun c s => ⟨_, rfl, rfl, rfl, unchanged_halt s c, rfl⟩, ?exec, ?step⟩
  case exec =>
    intro i s t hrun h ht
    rcases exec_keepsRunOrHalts h with ⟨hsame, -⟩ | ⟨c, rfl⟩
    · simp [hsame, hrun] at ht
    · exact ⟨⟨c, rfl⟩, unchanged_halt s c, rfl⟩
  case step =>
    intro s t hrun h ht
    rcases step_cases h with ⟨-, rfl⟩ | ⟨-, -, rfl⟩ | ⟨-, -, hexec⟩
    · simp [hrun] at ht
    · exact ⟨⟨.aob, rfl⟩, (unchanged_halt s .aob).mono (by simp [oneOf]), rfl⟩
    · rcases exec_keepsRunOrHalts hexec with ⟨hsame, -⟩ | ⟨c, rfl⟩
      · simp [hsame, hrun] at ht
      · exact ⟨⟨c, rfl⟩, ((Unchanged.refl s).latchOpcode (by simp [oneOf])).halt (by simp [oneOf]) (by simp [oneOf]), rfl⟩

theorem fatalCondition_eq_aob_iff (s : State) (i : Instr) :
    fatalCondition s i = some .aob ↔
      (∃ nnn : Addr12, i = .jpV0Nnn nnn ∧ 4096 ≤ nnn.toNat + (s.reg 0).toNat) ∨
      (∃ x y n, i = .drwVxVyN x y n ∧ 0 < n.toNat ∧ 4096 ≤ s.i.toNat + n.toNat - 1) ∨
      (∃ x, i = .ldBVx x ∧ 4096 ≤ s.i.toNat + 2) ∨
      (∃ x : Reg, i = .ldMemVx x ∧ 4096 ≤ s.i.toNat + x.val) ∨
      (∃ x : Reg, i = .ldVxMem x ∧ 4096 ≤ s.i.toNat + x.val) := by
  cases i with
  | drwVxVyN | ldBVx | ldMemVx | ldVxMem => simp [fatalCondition, inRange_iff, memSize, indexAddress]
  | _ => simp [fatalCondition]

/-- Settles O38: ERR becomes AOB exactly when that is the condition raised, and the table of conditions lists five cases. -/
theorem addressOutOfBoundsExactlyInTheseCases : Obligations.AddressOutOfBoundsExactlyInTheseCases := by
  intro i s t hs h
  exact (exec_err_eq_toError_iff (c := .aob) hs h).trans (fatalCondition_eq_aob_iff s i)

end Sys2Proof.Machine

/-! ## What each instruction leaves behind -/

namespace Sys2Proof.Machine

/-! ### Register and ALU instructions (42_alu.md) -/

theorem writesRegister_of_exec {i : Instr} {s : State} {x : Reg} {b : Byte} {value : Nat}
    (h : exec i s = .next (s.writeReg x b).advance) (hb : b.toNat = value) : WritesRegister i s x value :=
  ⟨_, h, by simpa using hb, rfl, loadReg_unchanged s x b, rfl⟩

/-- Settles O14: each is one write of its result and the advance of PC. -/
theorem registerLoadsWriteOnlyTheirDestination : Obligations.RegisterLoadsWriteOnlyTheirDestination := by
  intro s x y nn
  exact ⟨writesRegister_of_exec (exec_ldVxNn s x nn) rfl,
    writesRegister_of_exec (exec_addVxNn s x nn) (BitVec.toNat_add ..),
    writesRegister_of_exec (exec_ldVxVy s x y) rfl,
    writesRegister_of_exec (exec_orVxVy s x y) (BitVec.toNat_or ..),
    writesRegister_of_exec (exec_andVxVy s x y) (BitVec.toNat_and ..),
    writesRegister_of_exec (exec_xorVxVy s x y) (BitVec.toNat_xor ..)⟩

/-- A result and then a flag: VF holds the flag, `V[x]` the result unless it is VF. -/
theorem loadRegFlag_spec (s : State) (x : Reg) {r f : Byte} {value flag : Nat} (hr : r.toNat = value)
    (hf : f.toNat = flag) :
    ((s.writeResultFlag x r f).advance.reg flagReg).toNat = flag ∧
      (x ≠ flagReg → ((s.writeResultFlag x r f).advance.reg x).toNat = value) ∧
      (s.writeResultFlag x r f).advance.pc = s.pc + 2 ∧
      Frames (oneOf [.v x, .v flagReg, .pc]) s (s.writeResultFlag x r f).advance :=
  ⟨by simpa using hf, fun hx => by simpa [hx] using hr, rfl, loadRegFlag_unchanged s x r f, rfl⟩

theorem writesRegisterAndFlag_of_exec {i : Instr} {s : State} {x : Reg} {r f : Byte} {value flag : Nat}
    (h : exec i s = .next (s.writeResultFlag x r f).advance) (hr : r.toNat = value) (hf : f.toNat = flag) :
    WritesRegisterAndFlag i s x value flag :=
  ⟨_, h, loadRegFlag_spec s x hr hf⟩

theorem flagByte_toNat (p : Prop) [Decidable p] : (flagByte (decide p)).toNat = if p then 1 else 0 := by
  by_cases h : p <;> simp [flagByte, h]

theorem sub_toNat (a b : Byte) : (a - b).toNat = (a.toNat + 256 - b.toNat) % 256 := by
  rw [BitVec.toNat_sub]
  congr 1
  have := b.isLt
  omega

/-- Settles O15: the result and then the flag are written, both from the old operands. -/
theorem sumsAndDifferencesSetTheFlag : Obligations.SumsAndDifferencesSetTheFlag := by
  intro s x y
  exact ⟨writesRegisterAndFlag_of_exec (exec_addVxVy s x y) (BitVec.toNat_add ..) (flagByte_toNat _),
    writesRegisterAndFlag_of_exec (exec_subVxVy s x y) (sub_toNat ..) (flagByte_toNat _),
    writesRegisterAndFlag_of_exec (exec_subnVxVy s x y) (sub_toNat ..) (flagByte_toNat _)⟩

theorem shiftRight_one_toNat (a : Byte) : (a >>> 1).toNat = a.toNat / 2 := by
  rw [BitVec.toNat_ushiftRight, Nat.shiftRight_eq_div_pow]

theorem shiftLeft_one_toNat (a : Byte) : (a <<< 1).toNat = a.toNat * 2 % 256 := by
  rw [BitVec.toNat_shiftLeft, Nat.shiftLeft_eq]

theorem getLsbD_eq_decide (a : Byte) (k : Nat) : a.getLsbD k = decide (a.toNat / 2 ^ k % 2 = 1) := by
  rw [BitVec.getLsbD, Nat.testBit_eq_decide_div_mod_eq]

theorem lowBitFlag_toNat (a : Byte) : (lowBitFlag a).toNat = a.toNat % 2 := by
  rw [lowBitFlag, getLsbD_eq_decide, flagByte_toNat]
  split <;> omega

theorem highBitFlag_toNat (a : Byte) : (highBitFlag a).toNat = a.toNat / 128 := by
  have := a.isLt
  rw [highBitFlag, getLsbD_eq_decide, flagByte_toNat]
  split <;> omega

/-- Settles O16: at the default `SHIFT_SOURCE` the operand is `V[x]`. -/
theorem shiftsWorkInPlace : Obligations.ShiftsWorkInPlace := by
  intro s x y
  exact ⟨writesRegisterAndFlag_of_exec (exec_shrVx s x y) (shiftRight_one_toNat _) (lowBitFlag_toNat _),
    writesRegisterAndFlag_of_exec (exec_shlVx s x y) (shiftLeft_one_toNat _) (highBitFlag_toNat _)⟩

/-- Settles O17: whatever byte is drawn, the mask bounds its bits. -/
theorem randomByteStaysUnderItsMask : Obligations.RandomByteStaysUnderItsMask := by
  intro s x nn
  refine ⟨_, exec_rndVxNn s x nn, by simp, fun k hk => ?_, rfl, rfl,
    unchanged_of_countDraw (loadReg_unchanged s.countDraw x _)⟩
  have hbits : (Config.randomByte s.rndDraws).getLsbD k = true ∧ nn.getLsbD k = true := by simpa using hk
  exact hbits.2

/-! ### Control flow (41_control_flow.md) -/

/-- Settles O18: below 4096 the guard of JP V0,nnn lets the jump pass, and from 4096 on AOB is raised. -/
theorem jumpsReachTheirTarget : Obligations.JumpsReachTheirTarget := by
  intro s nnn
  refine ⟨⟨_, exec_jpNnn s nnn, zextAddress_toNat nnn, setPc_unchanged s _, rfl⟩, fun hlt => ?_, fun hge => ?_⟩
  · exact ⟨_, exec_jpV0Nnn_of_no_fatal s (if_neg (by omega)), by simp; omega, setPc_unchanged s _, rfl⟩
  · exact halts_of_fatalCondition (if_pos hge)

/-- Settles O19: with room the call pushes PC at SP, and with a full stack SOV is raised. -/
theorem callPushesItsOwnAddress : Obligations.CallPushesItsOwnAddress := by
  intro s nnn
  refine ⟨fun k hk => ?_, fun hfull => halts_of_fatalCondition (if_pos hfull)⟩
  have hroom : s.sp.val < 16 := by omega
  refine ⟨_, exec_callNnn_of_room s nnn hroom, by simp [State.called, hk], by simp [State.called, hk],
    zextAddress_toNat nnn, ?_, rfl⟩
  refine (exec_unchanged (exec_callNnn_of_room s nnn hroom) (if_neg (by omega))).mono ?_
  rintro e (he | ⟨j, hj, rfl⟩)
  · exact .tail _ he
  · obtain rfl : j = k := Fin.ext (by omega)
    exact .head _

/-- Settles O20: with an entry the return pops it and goes two past it, and with an empty stack SUN is raised. -/
theorem retContinuesPastTheCall : Obligations.RetContinuesPastTheCall := by
  intro s
  refine ⟨fun k hk => ?_, fun hempty => halts_of_fatalCondition (if_pos hempty)⟩
  have hret := exec_ret_of_entry hk
  exact ⟨_, hret, rfl, by simp, exec_unchanged hret (if_neg (by omega)), rfl⟩

theorem skipsWhen_of_exec {i : Instr} {s : State} {b : Bool} {cond : Prop} (h : exec i s = skipIf b s)
    (hb : b = true ↔ cond) : SkipsWhen i s cond :=
  ⟨_, h, fun hc => by simp [hb.2 hc], fun hc => by simp [mt hb.1 hc], setPc_unchanged s _, rfl⟩

/-- Settles O21: the four are `skipIf` of their comparison. -/
theorem registerSkipsCompare : Obligations.RegisterSkipsCompare := by
  intro s x y nn
  exact ⟨skipsWhen_of_exec (exec_seVxNn s x nn) beq_iff_eq, skipsWhen_of_exec (exec_sneVxNn s x nn) bne_iff_ne,
    skipsWhen_of_exec (exec_seVxVy s x y) beq_iff_eq, skipsWhen_of_exec (exec_sneVxVy s x y) bne_iff_ne⟩

/-! ### Keys and timers (44_keys_timers.md) -/

/-- Settles O27: both are `skipIf` of the key that the low four bits name. -/
theorem keySkipsConsultTheLowNibble : Obligations.KeySkipsConsultTheLowNibble := by
  intro s x
  exact ⟨skipsWhen_of_exec (exec_skpVx s x) Iff.rfl, skipsWhen_of_exec (exec_sknpVx s x) (by simp [keyDown, keyIndex])⟩

/-- Settles O28: each is one copy and the advance of PC. -/
theorem timerAccessesCopyWholeBytes : Obligations.TimerAccessesCopyWholeBytes := by
  intro s x
  exact ⟨writesRegister_of_exec (exec_ldVxDt s x) rfl,
    ⟨_, exec_ldDtVx s x, rfl, rfl, exec_unchanged (exec_ldDtVx s x) rfl, rfl⟩,
    ⟨_, exec_ldStVx s x, rfl, rfl, exec_unchanged (exec_ldStVx s x) rfl, rfl⟩⟩

/-- Settles O29: WAIT is set and PC advanced, and no register is written. -/
theorem awaitKeyOnlyBeginsTheWait : Obligations.AwaitKeyOnlyBeginsTheWait := by
  intro s x
  exact ⟨_, exec_ldVxK s x, rfl, rfl, exec_unchanged (exec_ldVxK s x) rfl, rfl⟩

/-! ### The index register and memory (45_index_memory.md) -/

/-- Settles O30: I takes its value modulo 65536, and the flag is taken from the unreduced sum. -/
theorem indexRegisterInstructions : Obligations.IndexRegisterInstructions := by
  intro s x nnn
  refine ⟨⟨_, exec_ldINnn s nnn, zextAddress_toNat nnn, rfl, exec_unchanged (exec_ldINnn s nnn) rfl, rfl⟩,
    ⟨_, exec_addIVx s x, BitVec.toNat_ofNat .., ?flag, rfl, exec_unchanged (exec_addIVx s x) rfl, rfl⟩,
    ⟨_, exec_ldFVx s x, ?glyph, rfl, exec_unchanged (exec_ldFVx s x) rfl, rfl⟩⟩
  case flag =>
    rw [State.advance_reg, State.writeReg_reg, if_pos rfl]
    exact flagByte_toNat _
  case glyph =>
    have := (s.reg x).isLt
    simp [glyphAddress, glyphBytes]
    omega

theorem inRange_of_lt {start len : Nat} (h : start + len < 4096) : inRange start (len + 1) = true :=
  (inRange_succ start len).2 h

theorem inRange_of_le {start len : Nat} (h : 4096 ≤ start + len) : inRange start (len + 1) = false := by
  rw [← Bool.not_eq_true, inRange_succ, memSize]
  omega

/-- Settles O31: in range the three digits are read back from the written block, out of range AOB is raised. -/
theorem ldBStoresTheDecimalDigits : Obligations.LdBStoresTheDecimalDigits := by
  intro s x
  refine ⟨fun hlt => ?completes, fun hge => ?halts⟩
  case completes =>
    have hin : inRange (indexAddress s) 3 = true := inRange_of_lt hlt
    have hexec := exec_ldBVx_of_no_fatal s x (if_pos hin)
    have hb := (s.reg x).isLt
    refine ⟨_, hexec, ?hundreds, ?tens, ?ones, rfl, exec_unchanged hexec (if_pos hin), rfl⟩
    all_goals
      simp [Memory.read_writeBytes, decimalDigits]
      omega
  case halts => exact halts_of_fatalCondition (by simp [fatalCondition, inRange_of_le hge])

/-- Inside the block, memory holds the registers that LD [I],Vx stores. -/
theorem read_stored {s : State} {x k : Reg} (hk : k.val ≤ x.val) :
    (s.mem.writeBytes (indexAddress s) (regsUpTo x s)).read (indexAddress s + k.val) = s.reg k := by
  rw [Memory.read_writeBytes, regsUpTo_length, if_pos (by omega), Nat.add_sub_cancel_left, regsUpTo_getD x s k hk]

/-- I past the block: inside memory the sum does not wrap. -/
theorem index_add_toNat {s : State} {n : Nat} (h : indexAddress s + n ≤ 4096) :
    (s.i + BitVec.ofNat 16 n).toNat = indexAddress s + n := by
  rw [indexAddress] at h ⊢
  rw [BitVec.toNat_add, BitVec.toNat_ofNat]
  omega

/-- Settles O32: in range the registers are read back from the written block, out of range AOB is raised. -/
theorem blockStoreWritesTheRegisters : Obligations.BlockStoreWritesTheRegisters := by
  intro s x
  refine ⟨fun hlt => ?completes, fun hge => ?halts⟩
  case completes =>
    have hin : inRange (indexAddress s) (x.val + 1) = true := inRange_of_lt hlt
    have hexec := exec_ldMemVx_of_no_fatal s x (if_pos hin)
    exact ⟨_, hexec, fun k hk => read_stored hk, index_add_toNat hlt, rfl, exec_unchanged hexec (if_pos hin), rfl⟩
  case halts => exact halts_of_fatalCondition (by simp [fatalCondition, inRange_of_le hge])

/-- Settles O33: in range each register of the block takes its byte, out of range AOB is raised. -/
theorem blockLoadReadsTheBytes : Obligations.BlockLoadReadsTheBytes := by
  intro s x
  refine ⟨fun hlt => ?completes, fun hge => ?halts⟩
  case completes =>
    have hin : inRange (indexAddress s) (x.val + 1) = true := inRange_of_lt hlt
    have hexec := exec_ldVxMem_of_no_fatal s x (if_pos hin)
    refine ⟨_, hexec, fun k hk => ?loaded, ?index, by simp, exec_unchanged hexec (if_pos hin), by simp⟩
    case loaded => simp [blockLoaded_reg, hk]
    case index =>
      rw [State.advance_i, State.stepIndex_i, State.blockLoaded_i]
      exact index_add_toNat hlt
  case halts => exact halts_of_fatalCondition (by simp [fatalCondition, inRange_of_le hge])

/-- Settles O34: the fetch reads memory as the store has left it. -/
theorem storedCodeIsFetched : Obligations.StoredCodeIsFetched := by
  intro s t x k j hkj hjx hlt h
  cases (exec_ldMemVx_of_no_fatal s x (if_pos (inRange_of_lt hlt))).symm.trans h
  have hpc : (s.i + BitVec.ofNat 16 k.val).toNat = indexAddress s + k.val := index_add_toNat (by omega)
  rw [fetchWord_eq, State.setPc_pc, hpc, if_pos (by omega), State.setPc_mem, State.advance_mem, State.stepIndex_mem,
    State.setMem_mem, read_stored (by omega), Nat.add_assoc, hkj, read_stored hjx]

end Sys2Proof.Machine

/-! ## The display (43_display.md) -/

namespace Sys2Proof.Machine

/-- Settles O23: the frame buffer is replaced by the blank one. -/
theorem clsBlanksTheScreen : Obligations.ClsBlanksTheScreen := by
  intro s
  exact ⟨_, exec_cls s, fun px py => Frame.pixel_blank .., rfl, rfl, exec_unchanged (exec_cls s) rfl, rfl⟩

/-- A set bit of the sprite falls on the pixel, under either value of `SPRITE_WRAP`. -/
def State.spriteHits (s : State) (wrap : Bool) (x y : Reg) (n : Nibble) (px py : Nat) : Prop :=
  ∃ r < (s.spriteRows n).length, ∃ c < 8, ((s.spriteRows n).getD r 0).getLsbD (7 - c) = true ∧
    placePixel wrap ((s.reg x).toNat + c) ((s.reg y).toNat + r) = some (px, py)

section
variable (s : State) (wrap : Bool) (x y : Reg) (n : Nibble)

theorem spriteRows_length_le : (s.spriteRows n).length ≤ 32 := by
  have := n.isLt
  rw [State.spriteRows_length]
  omega

theorem drawn_pixel_of_hit {px : Fin 64} {py : Fin 32} (h : s.spriteHits wrap x y n px.val py.val) :
    Frame.pixel (s.drawn wrap x y n).fb px.val py.val = !Frame.pixel s.fb px.val py.val := by
  rw [State.drawn_fb, State.sprite_eq]
  exact (drawRows_pixel _ _ _ _ _ (spriteRows_length_le s n) _ _ px.isLt py.isLt).1 h

theorem drawn_pixel_of_not_hit {px : Fin 64} {py : Fin 32} (h : ¬ s.spriteHits wrap x y n px.val py.val) :
    Frame.pixel (s.drawn wrap x y n).fb px.val py.val = Frame.pixel s.fb px.val py.val := by
  rw [State.drawn_fb, State.sprite_eq]
  exact (drawRows_pixel _ _ _ _ _ (spriteRows_length_le s n) _ _ px.isLt py.isLt).2 h

/-- A collision is a hit on a lit pixel; every hit is on the screen. -/
theorem sprite_collided_iff : (s.sprite wrap x y n).collided = true ↔
    ∃ (px : Fin 64) (py : Fin 32), s.spriteHits wrap x y n px.val py.val ∧ Frame.pixel s.fb px.val py.val = true := by
  have hdraw := drawRows_collided wrap (s.reg x).toNat (s.reg y).toNat 0 (s.spriteRows n)
    { fb := s.fb, collided := false } (by have := spriteRows_length_le s n; omega)
  simp only [Nat.add_zero, Nat.zero_add, Bool.false_eq_true, false_or] at hdraw
  rw [State.sprite_eq, hdraw]
  constructor
  · rintro ⟨r, hr, c, hc, hb, ⟨px, py⟩, hp, hlit⟩
    obtain ⟨hx, hy⟩ := placePixel_onScreen hp
    exact ⟨⟨px, hx⟩, ⟨py, hy⟩, ⟨r, hr, c, hc, hb, hp⟩, hlit⟩
  · rintro ⟨px, py, ⟨r, hr, c, hc, hb, hp⟩, hlit⟩
    exact ⟨r, hr, c, hc, hb, _, hp, hlit⟩

theorem drawn_flag_of_collision
    (h : ∃ (px : Fin 64) (py : Fin 32), s.spriteHits wrap x y n px.val py.val ∧ Frame.pixel s.fb px.val py.val = true) :
    (s.drawn wrap x y n).reg flagReg = 1 := by
  rw [State.drawn_reg, if_pos rfl, (sprite_collided_iff s wrap x y n).2 h]
  rfl

theorem drawn_flag_of_no_collision
    (h : ¬ ∃ (px : Fin 64) (py : Fin 32), s.spriteHits wrap x y n px.val py.val ∧ Frame.pixel s.fb px.val py.val = true) :
    (s.drawn wrap x y n).reg flagReg = 0 := by
  rw [State.drawn_reg, if_pos rfl, Bool.eq_false_iff.2 (mt (sprite_collided_iff s wrap x y n).1 h)]
  rfl

theorem spriteCovers_iff_hits (px : Fin 64) (py : Fin 32) :
    spriteCovers x y n s px.val py.val ↔ s.spriteHits false x y n px.val py.val :=
  spriteCovers_iff_placePixel s x y n px.isLt py.isLt

theorem spriteFoldsOnto_iff_hits (px : Fin 64) (py : Fin 32) :
    spriteFoldsOnto x y n s px.val py.val ↔ s.spriteHits true x y n px.val py.val :=
  spriteFoldsOnto_iff_placePixel s x y n

theorem inRange_of_sprite (h : n.toNat = 0 ∨ indexAddress s + n.toNat - 1 < 4096) :
    inRange (indexAddress s) n.toNat = true :=
  (inRange_iff _ _).2 h

theorem not_inRange_of_sprite (h0 : n.toNat ≠ 0) (h : 4096 ≤ indexAddress s + n.toNat - 1) :
    ¬ inRange (indexAddress s) n.toNat = true := by
  rw [inRange_iff, memSize]
  omega

end

/-- Settles O24: the covered pixels are those a set bit hits under clipping, and each hit inverts its pixel once. -/
theorem drwInvertsExactlyTheCoveredPixels : Obligations.DrwInvertsExactlyTheCoveredPixels := by
  intro s x y n
  refine ⟨fun hin => ?completes, fun h0 hout => halts_of_fatalCondition (if_neg (not_inRange_of_sprite s n h0 hout))⟩
  simp only [spriteCovers_iff_hits]
  exact ⟨_, exec_drwVxVyN_of_no_fatal s x y (if_pos (inRange_of_sprite s n hin)),
    fun px py => ⟨drawn_pixel_of_hit s false x y n, drawn_pixel_of_not_hit s false x y n⟩,
    drawn_flag_of_collision s false x y n, drawn_flag_of_no_collision s false x y n, rfl, rfl,
    drawn_unchanged s false x y n, rfl⟩

/-- Settles O26: the same laws, for the pixels hit under wrapping. -/
theorem wrappedSpritesFoldOntoTheScreen : Obligations.WrappedSpritesFoldOntoTheScreen := by
  intro s x y n
  simp only [spriteFoldsOnto_iff_hits, drawSprite_eq]
  refine ⟨fun hin => ?completes, fun h0 hout => ?halts⟩
  case completes =>
    rw [if_pos (inRange_of_sprite s n hin)]
    exact ⟨_, rfl, fun px py => ⟨drawn_pixel_of_hit s true x y n, drawn_pixel_of_not_hit s true x y n⟩,
      drawn_flag_of_collision s true x y n, drawn_flag_of_no_collision s true x y n, rfl, rfl,
      drawn_unchanged s true x y n, rfl⟩
  case halts =>
    rw [if_neg (not_inRange_of_sprite s n h0 hout)]
    exact ⟨_, rfl, rfl, rfl, unchanged_halt s .aob, rfl⟩

/-- A draw that leaves the machine running has drawn. -/
theorem eq_drawn_of_exec {s t : State} {x y : Reg} {n : Nibble} (h : exec (.drwVxVyN x y n) s = .next t)
    (ht : t.running = true) : inRange (indexAddress s) n.toNat = true ∧ t = s.drawn false x y n := by
  rw [exec_drwVxVyN] at h
  split at h
  · next hin => exact ⟨hin, (Host.Outcome.next.inj h).symm⟩
  · cases h
    cases ht

/-- The pixels a sprite hits depend on its coordinates, I and memory. -/
theorem spriteHits_drawn {s : State} {x y : Reg} {n : Nibble} (hx : (s.drawn false x y n).reg x = s.reg x)
    (hy : (s.drawn false x y n).reg y = s.reg y) (px py : Nat) :
    (s.drawn false x y n).spriteHits false x y n px py ↔ s.spriteHits false x y n px py := by
  rw [State.spriteHits, hx, hy]
  rfl

/-- Settles O25: the second draw hits the pixels of the first, so that each of them is inverted twice. -/
theorem drawingTwiceCancels : Obligations.DrawingTwiceCancels := by
  intro s t u x y n hrun hst ht hx hy htu
  obtain ⟨hin, rfl⟩ := eq_drawn_of_exec hst ht
  obtain rfl := Host.Outcome.next.inj ((exec_drwVxVyN_of_no_fatal (s.drawn false x y n) x y (if_pos hin)).symm.trans htu)
  simp only [spriteCovers_iff_hits]
  have hhits := spriteHits_drawn hx hy
  refine ⟨fun px py => ?restored, fun hsome hunlit => ?collides, fun hnone => ?misses⟩
  case restored =>
    by_cases hit : s.spriteHits false x y n px.val py.val
    · rw [drawn_pixel_of_hit _ _ _ _ _ ((hhits _ _).2 hit), drawn_pixel_of_hit _ _ _ _ _ hit, Bool.not_not]
    · rw [drawn_pixel_of_not_hit _ _ _ _ _ (mt (hhits _ _).1 hit), drawn_pixel_of_not_hit _ _ _ _ _ hit]
  case collides =>
    obtain ⟨px, py, hit⟩ := hsome
    refine drawn_flag_of_collision _ _ _ _ _ ⟨px, py, (hhits _ _).2 hit, ?_⟩
    rw [drawn_pixel_of_hit _ _ _ _ _ hit, hunlit px py hit, Bool.not_false]
  case misses =>
    exact ⟨drawn_flag_of_no_collision _ _ _ _ _ fun ⟨px, py, hit, _⟩ => hnone ⟨px, py, hit⟩,
      drawn_flag_of_no_collision _ _ _ _ _ fun ⟨px, py, hit, _⟩ => hnone ⟨px, py, (hhits _ _).1 hit⟩⟩

end Sys2Proof.Machine

/-! ## The other host operations, and the alternatives of the parameters -/

namespace Sys2Proof.Machine

/-- Settles O39: the state after Init shows what State.reset shows, and does not run. -/
theorem initGivesEveryElementItsResetValue : Obligations.InitGivesEveryElementItsResetValue := by
  intro s e
  exact ⟨⟨initialise s, rfl, (observe_initialise e s).trans (observe_reset e), step_of_not_running rfl⟩, observe_reset e⟩

/-! ### Tick (60_exceptions.md R203) -/

theorem countDown_toNat (b : Byte) : (countDown b).toNat = b.toNat - 1 := by
  unfold countDown
  split
  · next h => simp [h]
  · next h =>
    have : b.toNat ≠ 0 := fun h0 => h (BitVec.eq_of_toNat_eq h0)
    bv_omega

theorem Unchanged.tick {W : Element → Prop} {s t : State} (h : Unchanged W s t) (hdt : W .dt) (hst : W .st) :
    Unchanged W s (tick t) :=
  (h.setDt hdt).setSt hst

/-- Settles O41: by induction on the number of Ticks. -/
theorem ticksCountDownToZero : Obligations.TicksCountDownToZero := by
  intro k
  induction k with
  | zero => exact fun s => ⟨s, rfl, rfl, rfl, Unchanged.refl s, rfl⟩
  | succ k ih =>
    intro s
    obtain ⟨t, hrun, hdt, hst, hun, hdraws⟩ := ih (tick s)
    refine ⟨t, hrun, ?_, ?_, ((Unchanged.refl s).tick (by simp [oneOf]) (by simp [oneOf])).trans hun, hdraws⟩
    · rw [hdt, show (tick s).dt = countDown s.dt from rfl, countDown_toNat]
      omega
    · rw [hst, show (tick s).st = countDown s.st from rfl, countDown_toNat]
      omega

/-! ### KeyUpdate (44_keys_timers.md R157) -/

theorem mem_resolvingKeys_edge (mask keys : Word) (k : Fin 16) :
    (resolvingKeys .edge mask keys).getLsbD k.val = true ↔ mask.getLsbD k.val = true ∧ keys.getLsbD k.val = false := by
  simp [resolvingKeys]

theorem lowestKey_eq_some {w : Word} {k : Fin 16} (hk : w.getLsbD k.val = true)
    (hleast : ∀ j : Fin 16, j < k → w.getLsbD j.val = false) : lowestKey w = some k := by
  rcases lowestKey_spec w with ⟨-, hnone⟩ | ⟨j, hj, hset, hle⟩
  · cases hk.symm.trans (hnone k)
  · rcases Fin.lt_or_eq_of_le (hle k hk) with hlt | rfl
    · cases hset.symm.trans (hleast j hlt)
    · exact hj

theorem lowestKey_eq_none {w : Word} (h : ∀ k : Fin 16, w.getLsbD k.val = false) : lowestKey w = none := by
  rcases lowestKey_spec w with ⟨hnone, -⟩ | ⟨j, -, hset, -⟩
  · exact hnone
  · cases hset.symm.trans (h j)

theorem resolveWait_of_key {s : State} {w : Word} {k : Reg} (hwait : s.wait = true) (hk : lowestKey w = some k) :
    resolveWait w s = (s.writeReg (fieldX s.opcode) (BitVec.ofNat 8 k.val)).setWait false := by
  simp [resolveWait, hwait, hk]

theorem resolveWait_of_none {s : State} {w : Word} (h : s.wait = false ∨ lowestKey w = none) : resolveWait w s = s := by
  rcases resolveWait_cases w s with hsame | ⟨k, hwait, hk, -⟩
  · exact hsame
  · simp [hwait, hk] at h

/-- A key's number fits in the register that takes it. -/
theorem writeKey_reg_toNat (s : State) (x k : Reg) : ((s.writeReg x (BitVec.ofNat 8 k.val)).reg x).toNat = k.val := by
  have := k.isLt
  rw [State.writeReg_reg, if_pos rfl, BitVec.toNat_ofNat]
  omega

/-- Settles O42: a newly down key that no lower one precedes is `lowestKey` of the new keys; without one the wait goes on. -/
theorem keyPressEndsTheWait : Obligations.KeyPressEndsTheWait := by
  intro s mask
  refine ⟨_, rfl, fun k => rfl, fun k hwait hdown hup hleast => ?ends, fun hgoes => ?goes⟩
  case ends =>
    have hk : lowestKey (resolvingKeys .edge mask s.keys) = some k := by
      refine lowestKey_eq_some ((mem_resolvingKeys_edge ..).2 ⟨hdown, hup⟩) fun j hj => ?_
      rw [Bool.eq_false_iff, ne_eq, mem_resolvingKeys_edge]
      rintro ⟨hdown', hup'⟩
      cases hup'.symm.trans (hleast j hj hdown')
    rw [keyUpdate, keyUpdateWith, show config.keywaitTrigger = .edge from rfl, resolveWait_of_key hwait hk]
    exact ⟨rfl, writeKey_reg_toNat s _ k,
      (((Unchanged.refl s).writeReg (by simp)).setWait (by simp)).setKeys fun j => .inl ⟨j, rfl⟩, rfl⟩
  case goes =>
    have hnone : s.wait = false ∨ lowestKey (resolvingKeys .edge mask s.keys) = none := by
      refine hgoes.imp_right fun hheld => lowestKey_eq_none fun k => ?_
      rw [Bool.eq_false_iff, ne_eq, mem_resolvingKeys_edge]
      rintro ⟨hdown, hup⟩
      cases hup.symm.trans (hheld k hdown)
    rw [keyUpdate, keyUpdateWith, show config.keywaitTrigger = .edge from rfl, resolveWait_of_none hnone]
    exact ⟨(Unchanged.refl s).setKeys fun j => ⟨j, rfl⟩, rfl⟩

/-- Settles O47: under an unchanged mask no key is newly down, and the held key is the lowest that is down. -/
theorem heldKeyEndsOnlyALevelWait : Obligations.HeldKeyEndsOnlyALevelWait := by
  intro s k hwait hkeys
  have hedge : lowestKey (resolvingKeys .edge s.keys s.keys) = none :=
    lowestKey_eq_none fun j => by simp [resolvingKeys]
  have hlevel : lowestKey (resolvingKeys .level s.keys s.keys) = some k := by
    rw [hkeys, resolvingKeys]
    refine lowestKey_eq_some (by simp) fun j hj => ?_
    have : ¬ j.val = k.val := by omega
    simp [this]
  refine ⟨?_, ?_, ?_⟩
  · rw [keyUpdateWith, resolveWait_of_none (.inr hedge)]
    exact hwait
  · rw [keyUpdateWith, resolveWait_of_key hwait hlevel]
    rfl
  · rw [keyUpdateWith, resolveWait_of_key hwait hlevel]
    exact writeKey_reg_toNat s _ k

/-! ### AckFrame, Observe, and the operations that a wait outlasts -/

theorem ackFrame_unchanged (s : State) : Unchanged (oneOf [.draw]) s (ackFrame s) :=
  (Unchanged.refl s).clearDraw (by simp [oneOf])

/-- Settles O43: AckFrame is one update of DRAW, and Observe none. -/
theorem ackFrameAndObserve : Obligations.AckFrameAndObserve := by
  intro s e
  exact ⟨⟨_, rfl, rfl, ackFrame_unchanged s, rfl⟩, rfl, rfl⟩

/-- During a wait the operations that do not end it write the timers and DRAW at most. -/
theorem HostOp.apply_of_waiting {op : HostOp} (hop : op = .step ∨ op = .tick ∨ op = .ackFrame ∨ ∃ e, op = .observe e)
    {s t : State} (hwait : t.wait = true) (h : Frames (oneOf [.dt, .st, .draw]) s t) :
    ∃ u, op.apply t = .next u ∧ u.wait = true ∧ Frames (oneOf [.dt, .st, .draw]) s u := by
  obtain ⟨hun, hdraws⟩ := h
  rcases hop with rfl | rfl | rfl | ⟨e, rfl⟩
  · exact ⟨t, step_of_waiting hwait, hwait, hun, hdraws⟩
  · exact ⟨_, rfl, hwait, hun.tick (by simp [oneOf]) (by simp [oneOf]), hdraws⟩
  · exact ⟨_, rfl, hwait, hun.clearDraw (by simp [oneOf]), hdraws⟩
  · exact ⟨t, rfl, hwait, hun, hdraws⟩

/-- Settles O44: each passive operation keeps WAIT and the frame, so every list of them does. -/
theorem waitOutlastsStepsAndTicks : Obligations.WaitOutlastsStepsAndTicks := by
  intro ops s hwait hpassive
  obtain ⟨t, hrun, -, hframes⟩ :=
    runHostOps_preserves (P := fun t => t.wait = true ∧ Frames (oneOf [.dt, .st, .draw]) s t)
      (fun op hop _ ⟨ht, hframes⟩ => HostOp.apply_of_waiting (hpassive op hop) ht hframes)
      ⟨hwait, Unchanged.refl s, rfl⟩
  exact ⟨t, hrun, hframes⟩

/-! ### The alternatives of `JUMP_BASE` and `SHIFT_SOURCE` -/

theorem shiftRight_vy (s : State) (x y : Reg) :
    shiftRight .vy x y s = .next (s.writeResultFlag x (s.reg y >>> 1) (lowBitFlag (s.reg y))).advance := rfl

theorem shiftLeft_vy (s : State) (x y : Reg) :
    shiftLeft .vy x y s = .next (s.writeResultFlag x (s.reg y <<< 1) (highBitFlag (s.reg y))).advance := rfl

/-- Settles O48: the jump is `jumpTo` of the sum with I, and the shifts are those of `V[y]`. -/
theorem alternativeOperandSources : Obligations.AlternativeOperandSources := by
  intro s x y nnn
  refine ⟨fun hlt => ?jumps, fun hge => ?halts, ?right, ?left⟩
  case jumps =>
    rcases jumpTo_cases (nnn.toNat + s.i.toNat) s with ⟨hge, -⟩ | ⟨-, hjump⟩
    · rw [memSize] at hge
      omega
    · exact ⟨_, hjump, by simp; omega, setPc_unchanged s _, rfl⟩
  case halts =>
    rcases jumpTo_cases (nnn.toNat + s.i.toNat) s with ⟨-, hhalt⟩ | ⟨hlt, -⟩
    · exact ⟨_, hhalt, rfl, rfl, unchanged_halt s .aob, rfl⟩
    · rw [memSize] at hlt
      omega
  case right => exact ⟨_, shiftRight_vy s x y, loadRegFlag_spec s x (shiftRight_one_toNat _) (lowBitFlag_toNat _)⟩
  case left => exact ⟨_, shiftLeft_vy s x y, loadRegFlag_spec s x (shiftLeft_one_toNat _) (highBitFlag_toNat _)⟩

/-! ## ST and OPCODE as inputs (10_state.md R26, R36) -/

/-- The state with other values in OPCODE and ST. -/
def State.withOpcodeSt (s : State) (op : Word) (b : Byte) : State := (s.latchOpcode op).setSt b

section
variable (s : State) (op : Word) (b : Byte)

theorem fatalCondition_withOpcodeSt (i : Instr) : fatalCondition (s.withOpcodeSt op b) i = fatalCondition s i := by
  cases i <;> rfl

theorem blockLoaded_withOpcodeSt (x : Reg) :
    (s.withOpcodeSt op b).blockLoaded x = (s.blockLoaded x).withOpcodeSt op b := by
  have hv : ((s.withOpcodeSt op b).blockLoaded x).v = (s.blockLoaded x).v :=
    State.v_ext _ _ fun k => by simp only [blockLoaded_reg]; rfl
  rw [blockLoaded_eq, hv, blockLoaded_eq s]
  rfl

end

/-- An instruction that does not write ST answers the same with other values in OPCODE and ST, but for those two. -/
theorem exec_withOpcodeSt {i : Instr} {s t : State} (h : exec i s = .next t) (hi : ∀ x, i ≠ .ldStVx x) (op : Word)
    (b : Byte) : exec i (s.withOpcodeSt op b) = .next (t.withOpcodeSt op b) := by
  have hfatal := fatalCondition_withOpcodeSt s op b i
  rcases exec_cases h with ⟨c, hc, rfl⟩ | ⟨hnone, -⟩
  · exact exec_of_fatalCondition (hfatal.trans hc)
  cases i with
  | ldStVx x => exact absurd rfl (hi x)
  | ret =>
    obtain ⟨k, hk, hret⟩ := exec_ret_of_no_fatal s hnone
    cases hret.symm.trans h
    exact exec_ret_of_entry (s := s.withOpcodeSt op b) hk
  | callNnn nnn =>
    obtain ⟨hroom, hcall⟩ := exec_callNnn_of_no_fatal s hnone
    cases hcall.symm.trans h
    exact exec_callNnn_of_room (s.withOpcodeSt op b) nnn hroom
  | jpV0Nnn nnn =>
    cases (exec_jpV0Nnn_of_no_fatal s hnone).symm.trans h
    exact exec_jpV0Nnn_of_no_fatal (s.withOpcodeSt op b) hnone
  | drwVxVyN x y n =>
    cases (exec_drwVxVyN_of_no_fatal s x y hnone).symm.trans h
    exact exec_drwVxVyN_of_no_fatal (s.withOpcodeSt op b) x y hnone
  | ldBVx x =>
    cases (exec_ldBVx_of_no_fatal s x hnone).symm.trans h
    exact exec_ldBVx_of_no_fatal (s.withOpcodeSt op b) x hnone
  | ldMemVx x =>
    cases (exec_ldMemVx_of_no_fatal s x hnone).symm.trans h
    exact exec_ldMemVx_of_no_fatal (s.withOpcodeSt op b) x hnone
  | ldVxMem x =>
    cases (exec_ldVxMem_of_no_fatal s x hnone).symm.trans h
    rw [exec_ldVxMem_of_no_fatal (s.withOpcodeSt op b) x hnone, blockLoaded_withOpcodeSt]
    rfl
  | jpNnn nnn => cases (exec_jpNnn s nnn).symm.trans h; exact exec_jpNnn (s.withOpcodeSt op b) nnn
  | ldINnn nnn => cases (exec_ldINnn s nnn).symm.trans h; exact exec_ldINnn (s.withOpcodeSt op b) nnn
  | _ => cases h; rfl

/-- Settles O53: one commutation for both elements, each time with the other one kept at its value. -/
theorem soundTimerAndOpcodeAreNeverRead : Obligations.SoundTimerAndOpcodeAreNeverRead := by
  intro i s t b op h
  refine ⟨?opcode, fun hi => ?st, ?ldSt⟩
  case opcode =>
    by_cases hi : ∃ x, i = .ldStVx x
    · obtain ⟨x, rfl⟩ := hi
      cases h
      rfl
    · have hst : t.st = s.st := BitVec.eq_of_toNat_eq (exec_observe h (mt (written_st s i).1 hi))
      have ht : t.withOpcodeSt op s.st = t.latchOpcode op := by rw [← hst]; rfl
      rw [← ht]
      exact exec_withOpcodeSt h (fun x hx => hi ⟨x, hx⟩) op s.st
  case st =>
    have ht : t.withOpcodeSt s.opcode b = t.setSt b := by rw [← exec_opcode h]; rfl
    rw [← ht]
    exact exec_withOpcodeSt h hi s.opcode b
  case ldSt =>
    rintro x rfl
    cases h
    rfl

end Sys2Proof.Machine
